-- ==== Sys2Proof/Word.lean ====
section
/-! DEFINITION. The two data widths of the machine (spec/00_scope.md section 4, rule R6): a byte is 8 bits,
a word is 16 bits, both unsigned. Sums and differences of words are taken modulo 65536, which is what `+` and `-`
on `BitVec 16` are (spec/10_state.md rule R24). -/

namespace Sys2Proof

/-- One byte of memory or of an instruction. -/
abbrev Byte := BitVec 8

/-- One register, one 16-bit operand or one 16-bit memory access. -/
abbrev Word := BitVec 16

end Sys2Proof
end

