-- ==== Sys2Proof/Machine/Flags.lean ====
section
/-! DEFINITION. The ALU operations an instruction asks for by name. The machine has no flag (spec/10_state.md rule R34):
neither operation records a carry, an overflow or the result of a comparison. -/

namespace Sys2Proof.Machine

/-- The sum of ADD_REG_REG: unsigned, modulo 65536, the carry out of bit 15 lost (spec/42_arithmetic.md rules R140,
R141). -/
def aluAdd (a b : Word) : Word := a + b

/-- The condition of JMP_NOT_EQ: inequality of all 16 bits (spec/43_branch.md rule R150). -/
def aluNotEqual (a b : Word) : Bool := decide (a ≠ b)

end Sys2Proof.Machine
end

