-- ==== Sys2Proof/Machine/Bytes.lean ====
section
/-! DEFINITION. The byte order, decided once: big-endian for every 16-bit quantity (spec/20_memory.md rule R59,
spec/30_encoding.md rule R84). -/

namespace Sys2Proof

/-- `w[15:8]`, the byte at the lower address. -/
def highByte (w : Word) : Byte := w.extractLsb' 8 8

/-- `w[7:0]`, the byte at the higher address. -/
def lowByte (w : Word) : Byte := w.extractLsb' 0 8

/-- The spec's `{hi, lo}`, that is `hi * 256 + lo` (spec/00_scope.md section 4). -/
def wordOfBytes (hi lo : Byte) : Word := hi ++ lo

end Sys2Proof
end

