-- ==== Sys2Proof/Syntax.lean ====
section
/-! DEFINITION. The register names, the operand kinds and the instructions (spec/10_state.md rule R21,
spec/30_encoding.md rules R81 to R89). `Instr` has one constructor per row of spec/opcode_table.json. -/

namespace Sys2Proof

/-- The twelve registers in the order that fixes their numbers, `ip` = 0 to `fp` = 11 (rule R21). -/
inductive Reg where
  | ip | acc | r1 | r2 | r3 | r4 | r5 | r6 | r7 | r8 | sp | fp
deriving DecidableEq, Repr

/-- The three kinds of operand (rule R81). -/
inductive OperandKind where
  /-- one byte, a register number after reduction modulo 12 (rule R85) -/
  | reg
  /-- two bytes, a 16-bit literal (rule R84) -/
  | lit16
  /-- two bytes, an absolute 16-bit address (rule R84) -/
  | addr16
deriving DecidableEq, Repr

/-- The instructions, with operands in stream order (rule R83). A register operand is the register that the
instruction byte selects (rule R85), so that no ill-formed register can be written down. The sixteen last rows are the
unassigned opcodes (rule R89); each holds the bits that the row leaves free. -/
inductive Instr where
  /-- MOV_LIT_REG, rule R130 -/
  | movLitReg (literal : Word) (dst : Reg)
  /-- MOV_REG_REG, rule R131 -/
  | movRegReg (src dst : Reg)
  /-- MOV_REG_MEM, rule R132 -/
  | movRegMem (src : Reg) (address : Word)
  /-- MOV_MEM_REG, rule R133 -/
  | movMemReg (address : Word) (dst : Reg)
  /-- ADD_REG_REG, rule R140 -/
  | addRegReg (reg1 reg2 : Reg)
  /-- JMP_NOT_EQ, rule R150 -/
  | jmpNotEq (value address : Word)
  /-- PSH_LIT, rule R163 -/
  | pshLit (literal : Word)
  /-- PSH_REG, rule R164 -/
  | pshReg (src : Reg)
  /-- POP, rule R165 -/
  | pop (dst : Reg)
  /-- CAL_LIT, rule R176 -/
  | calLit (address : Word)
  /-- CAL_REG, rule R177 -/
  | calReg (src : Reg)
  /-- RET, rule R179 -/
  | ret
  /-- opcodes 0x00 to 0x0F, rule R200 -/
  | unassigned00To0F (low : BitVec 4)
  /-- opcode 0x16, rule R200 -/
  | unassigned16
  /-- opcode 0x19, rule R200 -/
  | unassigned19
  /-- opcode 0x1B, rule R200 -/
  | unassigned1B
  /-- opcodes 0x1C to 0x1F, rule R200 -/
  | unassigned1CTo1F (low : BitVec 2)
  /-- opcodes 0x20 to 0x3F, rule R200 -/
  | unassigned20To3F (low : BitVec 5)
  /-- opcodes 0x40 to 0x4F, rule R200 -/
  | unassigned40To4F (low : BitVec 4)
  /-- opcodes 0x50 to 0x57, rule R200 -/
  | unassigned50To57 (low : BitVec 3)
  /-- opcodes 0x58 to 0x5B, rule R200 -/
  | unassigned58To5B (low : BitVec 2)
  /-- opcodes 0x5C and 0x5D, rule R200 -/
  | unassigned5CTo5D (low : BitVec 1)
  /-- opcode 0x61, rule R200 -/
  | unassigned61
  /-- opcodes 0x62 and 0x63, rule R200 -/
  | unassigned62To63 (low : BitVec 1)
  /-- opcodes 0x64 to 0x67, rule R200 -/
  | unassigned64To67 (low : BitVec 2)
  /-- opcodes 0x68 to 0x6F, rule R200 -/
  | unassigned68To6F (low : BitVec 3)
  /-- opcodes 0x70 to 0x7F, rule R200 -/
  | unassigned70To7F (low : BitVec 4)
  /-- opcodes 0x80 to 0xFF, rule R200 -/
  | unassigned80ToFF (low : BitVec 7)
deriving DecidableEq, Repr

end Sys2Proof
end

