-- ==== Sys2Proof/Decode.lean ====
section
/-! DEFINITION. The decoder and the encoder (spec/30_encoding.md; spec/40_fetch_decode_step.md rule R114). The decoder
takes a list of bytes and answers the instruction at its front with the bytes left over. No byte value is illegal
(rule R90): the only lists it rejects are those that end before the instruction does, which the machine's own fetch
never produces. -/

namespace Sys2Proof

/-- The register's number (rule R21). -/
def Reg.number : Reg → Nat
  | .ip => 0 | .acc => 1 | .r1 => 2 | .r2 => 3 | .r3 => 4 | .r4 => 5
  | .r5 => 6 | .r6 => 7 | .r7 => 8 | .r8 => 9 | .sp => 10 | .fp => 11

/-- The register of a number below 12 (rule R21). -/
def regOfNumber : Nat → Reg
  | 0 => .ip | 1 => .acc | 2 => .r1 | 3 => .r2 | 4 => .r3 | 5 => .r4
  | 6 => .r5 | 7 => .r6 | 8 => .r7 | 9 => .r8 | 10 => .sp | _ => .fp

/-- A register operand byte selects register `b mod 12` (rule R85). -/
def regOfByte (b : Byte) : Reg := regOfNumber (b.toNat % 12)

/-- The canonical byte of a register operand (rule R86). -/
def Reg.byte (r : Reg) : Byte := BitVec.ofNat 8 r.number

/-- The operands that follow an opcode byte, in stream order (rules R82, R83). -/
def operandKinds (op : Byte) : List OperandKind :=
  if op = 0x10#8 then [.lit16, .reg]
  else if op = 0x11#8 then [.reg, .reg]
  else if op = 0x12#8 then [.reg, .addr16]
  else if op = 0x13#8 then [.addr16, .reg]
  else if op = 0x14#8 then [.reg, .reg]
  else if op = 0x15#8 then [.lit16, .addr16]
  else if op = 0x17#8 then [.lit16]
  else if op = 0x18#8 then [.reg]
  else if op = 0x1A#8 then [.reg]
  else if op = 0x5E#8 then [.addr16]
  else if op = 0x5F#8 then [.reg]
  else []

/-- How many bytes an operand occupies (rule R81). -/
def OperandKind.bytes : OperandKind → Nat
  | .reg => 1
  | .lit16 => 2
  | .addr16 => 2

/-- The length of an instruction as a function of its opcode byte alone (rule R88). -/
def lengthOfOpcode (op : Byte) : Nat := 1 + ((operandKinds op).map OperandKind.bytes).sum

/-- The length in bytes of an instruction (rules R83, R88). -/
def Instr.length : Instr → Nat
  | .movLitReg _ _ => 4
  | .movRegReg _ _ => 3
  | .movRegMem _ _ => 4
  | .movMemReg _ _ => 4
  | .addRegReg _ _ => 3
  | .jmpNotEq _ _ => 5
  | .pshLit _ => 3
  | .pshReg _ => 2
  | .pop _ => 2
  | .calLit _ => 3
  | .calReg _ => 2
  | .ret => 1
  | .unassigned00To0F _ => 1
  | .unassigned16 => 1
  | .unassigned19 => 1
  | .unassigned1B => 1
  | .unassigned1CTo1F _ => 1
  | .unassigned20To3F _ => 1
  | .unassigned40To4F _ => 1
  | .unassigned50To57 _ => 1
  | .unassigned58To5B _ => 1
  | .unassigned5CTo5D _ => 1
  | .unassigned61 => 1
  | .unassigned62To63 _ => 1
  | .unassigned64To67 _ => 1
  | .unassigned68To6F _ => 1
  | .unassigned70To7F _ => 1
  | .unassigned80ToFF _ => 1

/-- Why a list of bytes holds no whole instruction. Both are about the list, never about the hardware, which
decodes every byte sequence (rule R90). -/
inductive DecodeError where
  /-- the list has no opcode byte -/
  | empty
  /-- the list ends before the operands of the opcode do -/
  | truncated (opcode : Byte)
deriving DecidableEq, Repr

/-- The row of spec/opcode_table.json of an unassigned opcode byte (rule R89), by the rows' masks and patterns; the
last row, 0x80 to 0xFF, is what is left once the rows before it and the twelve opcodes of rule R87 are taken out. -/
def decodeUnassigned (op : Byte) : Instr :=
  if op &&& 0xF0#8 = 0x00#8 then .unassigned00To0F (op.extractLsb' 0 4)
  else if op = 0x16#8 then .unassigned16
  else if op = 0x19#8 then .unassigned19
  else if op = 0x1B#8 then .unassigned1B
  else if op &&& 0xFC#8 = 0x1C#8 then .unassigned1CTo1F (op.extractLsb' 0 2)
  else if op &&& 0xE0#8 = 0x20#8 then .unassigned20To3F (op.extractLsb' 0 5)
  else if op &&& 0xF0#8 = 0x40#8 then .unassigned40To4F (op.extractLsb' 0 4)
  else if op &&& 0xF8#8 = 0x50#8 then .unassigned50To57 (op.extractLsb' 0 3)
  else if op &&& 0xFC#8 = 0x58#8 then .unassigned58To5B (op.extractLsb' 0 2)
  else if op &&& 0xFE#8 = 0x5C#8 then .unassigned5CTo5D (op.extractLsb' 0 1)
  else if op = 0x61#8 then .unassigned61
  else if op &&& 0xFE#8 = 0x62#8 then .unassigned62To63 (op.extractLsb' 0 1)
  else if op &&& 0xFC#8 = 0x64#8 then .unassigned64To67 (op.extractLsb' 0 2)
  else if op &&& 0xF8#8 = 0x68#8 then .unassigned68To6F (op.extractLsb' 0 3)
  else if op &&& 0xF0#8 = 0x70#8 then .unassigned70To7F (op.extractLsb' 0 4)
  else .unassigned80ToFF (op.extractLsb' 0 7)

/-- The instruction that an opcode byte and the bytes after it make, with the bytes left over; `none` where the bytes
end too early. Exact match on all eight bits of the opcode (rules R83, R87, R114). -/
def decodeAfter (op : Byte) (bs : List Byte) : Option (Instr × List Byte) :=
  if op = 0x10#8 then
    match bs with
    | h :: l :: d :: rest => some (.movLitReg (wordOfBytes h l) (regOfByte d), rest)
    | _ => none
  else if op = 0x11#8 then
    match bs with
    | a :: d :: rest => some (.movRegReg (regOfByte a) (regOfByte d), rest)
    | _ => none
  else if op = 0x12#8 then
    match bs with
    | a :: h :: l :: rest => some (.movRegMem (regOfByte a) (wordOfBytes h l), rest)
    | _ => none
  else if op = 0x13#8 then
    match bs with
    | h :: l :: d :: rest => some (.movMemReg (wordOfBytes h l) (regOfByte d), rest)
    | _ => none
  else if op = 0x14#8 then
    match bs with
    | a :: b :: rest => some (.addRegReg (regOfByte a) (regOfByte b), rest)
    | _ => none
  else if op = 0x15#8 then
    match bs with
    | h :: l :: th :: tl :: rest => some (.jmpNotEq (wordOfBytes h l) (wordOfBytes th tl), rest)
    | _ => none
  else if op = 0x17#8 then
    match bs with
    | h :: l :: rest => some (.pshLit (wordOfBytes h l), rest)
    | _ => none
  else if op = 0x18#8 then
    match bs with
    | a :: rest => some (.pshReg (regOfByte a), rest)
    | _ => none
  else if op = 0x1A#8 then
    match bs with
    | d :: rest => some (.pop (regOfByte d), rest)
    | _ => none
  else if op = 0x5E#8 then
    match bs with
    | h :: l :: rest => some (.calLit (wordOfBytes h l), rest)
    | _ => none
  else if op = 0x5F#8 then
    match bs with
    | a :: rest => some (.calReg (regOfByte a), rest)
    | _ => none
  else if op = 0x60#8 then some (.ret, bs)
  else some (decodeUnassigned op, bs)

/-- The instruction at the front of a list of bytes, and the bytes after it. -/
def decode : List Byte → Except DecodeError (Instr × List Byte)
  | [] => .error .empty
  | op :: bs =>
    match decodeAfter op bs with
    | some r => .ok r
    | none => .error (.truncated op)

/-- The bytes of an instruction, registers by their canonical bytes (rules R82, R83, R86, R89; the bit strings of
spec/opcode_table.json). -/
def encode : Instr → List Byte
  | .movLitReg literal dst => [0x10#8, highByte literal, lowByte literal, dst.byte]
  | .movRegReg src dst => [0x11#8, src.byte, dst.byte]
  | .movRegMem src address => [0x12#8, src.byte, highByte address, lowByte address]
  | .movMemReg address dst => [0x13#8, highByte address, lowByte address, dst.byte]
  | .addRegReg reg1 reg2 => [0x14#8, reg1.byte, reg2.byte]
  | .jmpNotEq value address => [0x15#8, highByte value, lowByte value, highByte address, lowByte address]
  | .pshLit literal => [0x17#8, highByte literal, lowByte literal]
  | .pshReg src => [0x18#8, src.byte]
  | .pop dst => [0x1A#8, dst.byte]
  | .calLit address => [0x5E#8, highByte address, lowByte address]
  | .calReg src => [0x5F#8, src.byte]
  | .ret => [0x60#8]
  | .unassigned00To0F low => [0b0000#4 ++ low]
  | .unassigned16 => [0x16#8]
  | .unassigned19 => [0x19#8]
  | .unassigned1B => [0x1B#8]
  | .unassigned1CTo1F low => [0b000111#6 ++ low]
  | .unassigned20To3F low => [0b001#3 ++ low]
  | .unassigned40To4F low => [0b0100#4 ++ low]
  | .unassigned50To57 low => [0b01010#5 ++ low]
  | .unassigned58To5B low => [0b010110#6 ++ low]
  | .unassigned5CTo5D low => [0b0101110#7 ++ low]
  | .unassigned61 => [0x61#8]
  | .unassigned62To63 low => [0b0110001#7 ++ low]
  | .unassigned64To67 low => [0b011001#6 ++ low]
  | .unassigned68To6F low => [0b01101#5 ++ low]
  | .unassigned70To7F low => [0b0111#4 ++ low]
  | .unassigned80ToFF low => [0b1#1 ++ low]

/-- Whether an opcode byte is one of the twelve assigned ones (rule R87). -/
def isAssigned (op : Byte) : Bool :=
  op ∈ [0x10#8, 0x11#8, 0x12#8, 0x13#8, 0x14#8, 0x15#8, 0x17#8, 0x18#8, 0x1A#8, 0x5E#8, 0x5F#8, 0x60#8]

/-- Byte `k` of an instruction whose `nbits` bits, as spec/opcode_table.json numbers them, are the number `w`: the
table writes the whole instruction as one big-endian bit string with the opcode byte in its most significant eight
bits (rule R82), so byte 0 is the highest byte of `w`. A byte past the table's bits is 0. -/
def tableByte (nbits w k : Nat) : Byte :=
  if 8 * (k + 1) ≤ nbits then BitVec.ofNat 8 (w >>> (nbits - 8 * (k + 1))) else 0#8

/-- The five bytes, as many as the longest instruction has, that hold the instruction `w` (rule R80). -/
def tableBytes (nbits w : Nat) : List Byte :=
  [tableByte nbits w 0, tableByte nbits w 1, tableByte nbits w 2, tableByte nbits w 3, tableByte nbits w 4]

/-- The instruction that the decoder reads from the table's bits `w`. -/
def decodeTableWord (nbits w : Nat) : Option Instr :=
  match decode (tableBytes nbits w) with
  | .ok (i, _) => some i
  | .error _ => none

end Sys2Proof
end

