-- ==== Sys2Proof/Config.lean ====
section
/-! DEFINITION. What is fixed for a machine (spec/00_scope.md section 3). No free value stands here: the spec leaves
no value of a defined operation open (spec/93_implementation_defined.md section 1). -/

namespace Sys2Proof.Config

/-- `REG_COUNT` (rule R6). -/
def regCount : Nat := 12

/-- The least `MEM_SIZE` the spec permits (rule R7). -/
def minMemSize : Nat := 2

/-- The greatest `MEM_SIZE` the spec permits (rule R7). -/
def maxMemSize : Nat := 65536

/-- The `MEM_SIZE` of `State.reset`. DESIGN CHOICE (log entry 1), unsafe where a claim is about `State.reset` alone:
the spec leaves `MEM_SIZE` open, and its test vectors take 65536 unless they say otherwise. Every meaning reads the
size from the state, so that claims over all states hold for every size. -/
def resetMemSize : Nat := 65536

end Sys2Proof.Config
end

