-- ==== Sys2Proof/Machine/State.lean ====
section
/-! DEFINITION. The state (spec/10_state.md): twelve registers, the memory and the counter `stackFrameSize`, and nothing
else (rule R20); the reasons a step can stop; the state after reset (rule R37). -/

namespace Sys2Proof.Machine

/-- The register file: twelve 16-bit registers in the spec's order (rule R21). -/
structure Registers where
  ip : Word
  acc : Word
  r1 : Word
  r2 : Word
  r3 : Word
  r4 : Word
  r5 : Word
  r6 : Word
  r7 : Word
  r8 : Word
  sp : Word
  fp : Word
deriving DecidableEq, Repr

/-- The byte sequence `mem[0 .. size-1]` (rule R35). `size` is `MEM_SIZE`, the length of the sequence: chosen when the
machine is created and changed by nothing after that. `cells` lists the bytes that are not 0, by strictly rising
address; an address inside memory that is not listed holds 0, its reset value (spec/20_memory.md rule R51). -/
structure Memory where
  size : Nat
  cells : List Host.Cell
deriving DecidableEq, Repr

/-- The whole state of the machine (rule R20). -/
structure State where
  /-- the register file, rule R21 -/
  regs : Registers
  /-- the memory, rule R35 -/
  mem : Memory
  /-- `stackFrameSize`, rules R31 and R32; 16 bits by spec/00_scope.md rule R8 -/
  sfs : Word
deriving DecidableEq, Repr

/-- Why a step has no successor state. -/
inductive Fault where
  /-- A 16-bit store of which at least one byte lies outside memory: the spec's `UNDEFINED(store out of range)`
  (spec/20_memory.md rules R57, R58; spec/60_exceptions.md rule R217; spec/93_implementation_defined.md U1). Raised by
  MOV_REG_MEM, PSH_LIT, PSH_REG, CAL_LIT and CAL_REG. It names the instruction, the address of its opcode byte and the
  address of the first store that is out of range. Safe: the hardware detects nothing and goes on in a way the spec
  does not give, and the model proves nothing about what follows. -/
  | storeOutOfRange (instr : Instr) (instrAddress storeAddress : Word)
deriving DecidableEq, Repr

/-- Why something that was asked for is not done. -/
inductive Refusal where
  /-- An instruction of the table without a meaning, refused in `exec`'s own arm. Raised by no arm of this model.
  Safe. -/
  | notModelled (mnemonic : String)
  /-- The bytes handed over are no whole instruction. Raised by `execute` where the decoder rejects what the fetch
  unit read, which never happens (the fetch unit reads as many bytes as the opcode asks for). Safe. -/
  | undecodable (bytes : List Byte)
  /-- A host write that does not lie wholly inside memory (spec/93_implementation_defined.md U2). Raised by the host
  operations only; nothing is written. Safe. -/
  | hostStoreOutOfRange (address length : Nat)
  /-- A `MEM_SIZE` outside `2..65536` (U7). Raised by `hostCreate` only. Safe. -/
  | memSizeNotPermitted (size : Nat)
  /-- A register name that is none of the twelve (U5). Raised by the host's register accessors only. Safe. -/
  | unknownRegisterName (name : String)
deriving DecidableEq, Repr

/-- The registers after reset of a machine with `size` bytes of memory: 0, but for `sp` and `fp`, which are
`MEM_SIZE - 2` (rule R37). -/
def Registers.resetOfSize (size : Nat) : Registers where
  ip := 0#16
  acc := 0#16
  r1 := 0#16
  r2 := 0#16
  r3 := 0#16
  r4 := 0#16
  r5 := 0#16
  r6 := 0#16
  r7 := 0#16
  r8 := 0#16
  sp := BitVec.ofNat 16 (size - 2)
  fp := BitVec.ofNat 16 (size - 2)

/-- The state after reset of a machine with `size` bytes of memory (rules R37, R240). That `sfs` is 0 is the spec's own
decision D3 (log entry 2). -/
def State.resetOfSize (size : Nat) : State where
  regs := Registers.resetOfSize size
  mem := { size := size, cells := [] }
  sfs := 0#16

/-- The state after reset of the machine the host runs. Its `MEM_SIZE` is 65536: DESIGN CHOICE (log entry 1). -/
def State.reset : State := State.resetOfSize Config.resetMemSize

end Sys2Proof.Machine
end

