-- ==== Sys2Proof/WellFormed.lean ====
section
/-! DEFINITION. What is checked before something is used. An instruction needs no check of its own: its type admits
only the twelve registers, 16-bit words and the free bits of its row, and the hardware has no illegal encoding
(spec/30_encoding.md rules R85, R90). What can be ill-formed is a list of bytes that is not exactly one instruction, a
memory size outside the permitted range, and a block of bytes that does not lie inside memory. -/

namespace Sys2Proof

/-- The bytes are exactly one instruction: an opcode byte and as many bytes after it as its operands take
(rules R80, R88). -/
def instrBytesOk : List Byte → Bool
  | [] => false
  | op :: bs => decide (1 + bs.length = lengthOfOpcode op)

/-- The bytes are exactly one instruction whose register operand bytes are the canonical ones, `0x00` to `0x0B`
(rule R86): what an assembler emits. -/
def canonicalBytesOk (bs : List Byte) : Bool :=
  match decode bs with
  | .ok (i, rest) => rest.isEmpty && decide (encode i = bs)
  | .error _ => false

/-- `MEM_SIZE` lies in `2..65536` (spec/00_scope.md rule R7, spec/93_implementation_defined.md U7). -/
def memSizeOk (n : Nat) : Bool := decide (Config.minMemSize ≤ n) && decide (n ≤ Config.maxMemSize)

/-- A block of `len` bytes at `address` lies wholly inside a memory of `size` bytes (spec/20_memory.md rule R71). -/
def blockFits (size address len : Nat) : Bool := decide (address + len ≤ size)

end Sys2Proof
end

