-- ==== Sys2Proof/Machine/Memory.lean ====
section
/-! DEFINITION. The memory's primitives (spec/20_memory.md rules R51 to R58, R71). An address is a natural number here:
the second byte of a 16-bit access at `0xFFFF` is at `0x10000`, not at 0 (rule R54). -/

namespace Sys2Proof.Machine

/-- The byte listed for address `a`, 0 where none is. -/
def cellAt : List Host.Cell → Nat → Byte
  | [], _ => 0#8
  | (k, b) :: rest, a => if k = a then b else cellAt rest a

/-- The cells without address `a`. -/
def eraseCell : List Host.Cell → Nat → List Host.Cell
  | [], _ => []
  | (k, b) :: rest, a => if k = a then eraseCell rest a else (k, b) :: eraseCell rest a

/-- The cells with `b` at address `a`, in the place that keeps the addresses rising. -/
def insertCell : List Host.Cell → Nat → Byte → List Host.Cell
  | [], a, b => [(a, b)]
  | (k, c) :: rest, a, b =>
    if a < k then (a, b) :: (k, c) :: rest
    else if a = k then (a, b) :: rest
    else (k, c) :: insertCell rest a b

/-- The cells after byte `b` is written at `a`: 0 is what an unlisted address reads as, so writing it removes the
entry. -/
def putCell (cells : List Host.Cell) (a : Nat) (b : Byte) : List Host.Cell :=
  if b = 0#8 then eraseCell cells a else insertCell cells a b

/-- The addresses rise strictly, each lies in `lo ..< hi`, and no listed byte is 0. -/
def cellsOk (lo hi : Nat) : List Host.Cell → Bool
  | [] => true
  | (k, b) :: rest => decide (lo ≤ k) && decide (k < hi) && decide (b ≠ 0#8) && cellsOk (k + 1) hi rest

/-- The canonical form, in which equal memories are equal data, and a size the spec permits (rule R7). -/
def Memory.wf (m : Memory) : Bool := memSizeOk m.size && cellsOk 0 m.size m.cells

/-- `ByteAt(a)`: the byte at `a`, and 0 outside memory (rule R51). -/
def Memory.byteAt (m : Memory) (a : Nat) : Byte := if a < m.size then cellAt m.cells a else 0#8

/-- `MemRead(a, 2)`: big-endian, each byte in or out of range on its own (rules R53, R54). -/
def Memory.read16 (m : Memory) (a : Nat) : Word := wordOfBytes (m.byteAt a) (m.byteAt (a + 1))

/-- `mem[a] <- b` for an address inside memory. -/
def Memory.put (m : Memory) (a : Nat) (b : Byte) : Memory := { m with cells := putCell m.cells a b }

/-- `MemWrite(a, 1, b)`: `none` is the spec's `UNDEFINED(store out of range)` (rules R55, R57). -/
def Memory.write8 (m : Memory) (a : Nat) (b : Byte) : Option Memory :=
  if a < m.size then some (m.put a b) else none

/-- `MemWrite(a, 2, v)`: the high byte at `a`, the low byte at `a + 1`; undefined as a whole where either is out of
range (rules R56, R58). -/
def Memory.write16 (m : Memory) (a : Nat) (v : Word) : Option Memory :=
  if a + 1 < m.size then some ((m.put a (highByte v)).put (a + 1) (lowByte v)) else none

/-- `mem[a + k] <- bytes[k]` for `k` from 0 up (rule R71). -/
def Memory.putBytes (m : Memory) (a : Nat) : List Byte → Memory
  | [] => m
  | b :: bs => (m.put a b).putBytes (a + 1) bs

/-- `setBlock`: `none` where the block does not lie inside memory, and then nothing is written (rule R71, U2). -/
def Memory.setBlock (m : Memory) (a : Nat) (bs : List Byte) : Option Memory :=
  if blockFits m.size a bs.length then some (m.putBytes a bs) else none

/-- `show`: the bytes `ByteAt(a)`, `ByteAt(a + 1)`, … (rule R71). -/
def Memory.window (m : Memory) (a : Nat) : Nat → List Byte
  | 0 => []
  | n + 1 => m.byteAt a :: m.window (a + 1) n

end Sys2Proof.Machine
end

