-- ==== Sys2Proof/Machine/Ops.lean ====
section
/-! DEFINITION. The named operations over registers, memory and stack (spec/10_state.md R22 to R24, spec/44_stack.md R160
to R162, spec/45_call_return.md R175, R178). The hardware takes no exception and returns from none (spec/60_exceptions.md
rules R210, R214, R215): there is no operation for either, and the one undefined case, a store outside memory, ends the
step in `finishStore`. -/

namespace Sys2Proof.Machine

/-- `x[i]` (rule R22). -/
def State.get (s : State) : Reg → Word
  | .ip => s.regs.ip
  | .acc => s.regs.acc
  | .r1 => s.regs.r1
  | .r2 => s.regs.r2
  | .r3 => s.regs.r3
  | .r4 => s.regs.r4
  | .r5 => s.regs.r5
  | .r6 => s.regs.r6
  | .r7 => s.regs.r7
  | .r8 => s.regs.r8
  | .sp => s.regs.sp
  | .fp => s.regs.fp

/-- `x[i] <- v` (rule R24). No register is hardwired or read-only (rule R23). -/
def State.set (s : State) (r : Reg) (v : Word) : State :=
  match r with
  | .ip => { s with regs := { s.regs with ip := v } }
  | .acc => { s with regs := { s.regs with acc := v } }
  | .r1 => { s with regs := { s.regs with r1 := v } }
  | .r2 => { s with regs := { s.regs with r2 := v } }
  | .r3 => { s with regs := { s.regs with r3 := v } }
  | .r4 => { s with regs := { s.regs with r4 := v } }
  | .r5 => { s with regs := { s.regs with r5 := v } }
  | .r6 => { s with regs := { s.regs with r6 := v } }
  | .r7 => { s with regs := { s.regs with r7 := v } }
  | .r8 => { s with regs := { s.regs with r8 := v } }
  | .sp => { s with regs := { s.regs with sp := v } }
  | .fp => { s with regs := { s.regs with fp := v } }

/-- `sfs <- v`. -/
def State.setSfs (s : State) (v : Word) : State := { s with sfs := v }

/-- The state with another memory. -/
def State.setMem (s : State) (m : Memory) : State := { s with mem := m }

/-- `MemRead(a, 2)` at a 16-bit address the core forms (rule R53). -/
def State.load16 (s : State) (a : Word) : Word := s.mem.read16 a.toNat

/-- `MemWrite(a, 2, v)` at a 16-bit address the core forms: the state after it, or the address of the store that is
out of range (rules R56, R58). -/
def store16 (a v : Word) (s : State) : Except Word State :=
  match s.mem.write16 a.toNat v with
  | some m => .ok (s.setMem m)
  | none => .error a

/-- `Push(v)`: write at `sp`, then `sp <- sp - 2` and `sfs <- sfs + 2` (rule R160). -/
def push (v : Word) (s : State) : Except Word State :=
  match store16 (s.get .sp) v s with
  | .ok t => .ok ((t.set .sp (t.get .sp - 2#16)).setSfs (t.sfs + 2#16))
  | .error a => .error a

/-- `Pop()`: `sp <- sp + 2` and `sfs <- sfs - 2`, then read at the new `sp` (rule R161). -/
def pop (s : State) : Word × State :=
  let t := (s.set .sp (s.get .sp + 2#16)).setSfs (s.sfs - 2#16)
  (t.load16 (t.get .sp), t)

/-- `PopN(n)` as its net effect, which rule R162 states: the popped words are discarded and reads have no side effect
(spec/20_memory.md rule R63). `popRepeatedly` is the loop it stands for. -/
def popN (n : Word) (s : State) : State :=
  (s.set .sp (s.get .sp + 2#16 * n)).setSfs (s.sfs - 2#16 * n)

/-- The loop of rule R162: `Pop()` `k` times, results discarded. -/
def popRepeatedly : Nat → State → State
  | 0, s => s
  | k + 1, s => popRepeatedly k (pop s).2

/-- `x[r] <- Pop()`. -/
def popInto (r : Reg) (s : State) : State := (pop s).2.set r (pop s).1

/-- `Push(x[r])` for each register of a list, in order. -/
def pushRegs : List Reg → State → Except Word State
  | [], s => .ok s
  | r :: rs, s =>
    match push (s.get r) s with
    | .ok t => pushRegs rs t
    | .error a => .error a

/-- `x[r] <- Pop()` for each register of a list, in order. -/
def popRegs : List Reg → State → State
  | [], s => s
  | r :: rs, s => popRegs rs (popInto r s)

/-- What a call saves, in push order (rule R175). -/
def savedRegs : List Reg := [.r1, .r2, .r3, .r4, .r5, .r6, .r7, .r8, .ip]

/-- What a return restores, in pop order (rule R178). -/
def restoredRegs : List Reg := [.ip, .r8, .r7, .r6, .r5, .r4, .r3, .r2, .r1]

/-- `PushState()`: push `r1` to `r8` and `ip`, then the marker `sfs + 2` with `sfs` read after those nine pushes, then
`fp <- sp` (rule R175). `sfs` is not reset (rule R184). -/
def pushState (s : State) : Except Word State :=
  match pushRegs savedRegs s with
  | .error a => .error a
  | .ok t =>
    match push (t.sfs + 2#16) t with
    | .error a => .error a
    | .ok u => .ok (u.set .fp (u.get .sp))

/-- `PopState()`: `sp <- fp`, pop the marker, `ip`, `r8` to `r1` and `nArgs`, discard `nArgs` words, and set `fp` to the
old `fp` plus the marker (rule R178). The marker is not loaded into `sfs` (rule R184). -/
def popState (s : State) : State :=
  let framePointerAddress := s.get .fp
  let marked := pop (s.set .sp framePointerAddress)
  let counted := pop (popRegs restoredRegs marked.2)
  (popN counted.1 counted.2).set .fp (framePointerAddress + marked.1)

/-- The outcome of instruction `i` whose last effect is a store: the state after it, or the fault that names the
instruction, its address and the store's (spec/93_implementation_defined.md U1). `s` is the state the meaning began in,
whose `ip` is the address after the instruction (spec/40_fetch_decode_step.md rule R118). -/
def finishStore (i : Instr) (s : State) : Except Word State → Host.Outcome State Fault Refusal
  | .ok t => .next t
  | .error a => .fault (.storeOutOfRange i (s.get .ip - BitVec.ofNat 16 i.length) a)

end Sys2Proof.Machine
end

