-- ==== Sys2Proof/Machine/Arithmetic.lean ====
section
/-! DEFINITION. The arithmetic instruction (spec/42_arithmetic.md). -/

namespace Sys2Proof.Machine

/-- ADD_REG_REG: both sources are read before `acc` is written (rule R140). -/
def execAddRegReg (reg1 reg2 : Reg) (s : State) : Host.Outcome State Fault Refusal :=
  .next (s.set .acc (aluAdd (s.get reg1) (s.get reg2)))

end Sys2Proof.Machine
end

