-- ==== Sys2Proof/Machine/Branch.lean ====
section
/-! DEFINITION. The conditional branch (spec/43_branch.md). -/

namespace Sys2Proof.Machine

/-- JMP_NOT_EQ: taken where the values differ; otherwise `ip` stays past the instruction (rule R150). -/
def execJmpNotEq (value address : Word) (s : State) : Host.Outcome State Fault Refusal :=
  .next (if aluNotEqual value (s.get .acc) then s.set .ip address else s)

end Sys2Proof.Machine
end

