-- ==== Sys2Proof/Machine/CallReturn.lean ====
section
/-! DEFINITION. Call and return (spec/45_call_return.md). -/

namespace Sys2Proof.Machine

/-- `PushState()`, then `ip <- target`. -/
def callTo (target : Word) (s : State) : Except Word State :=
  match pushState s with
  | .ok t => .ok (t.set .ip target)
  | .error a => .error a

/-- CAL_LIT (rule R176). -/
def execCalLit (address : Word) (s : State) : Host.Outcome State Fault Refusal :=
  finishStore (.calLit address) s (callTo address s)

/-- CAL_REG: the target is read before `PushState` changes `sp` and `fp` (rule R177). -/
def execCalReg (src : Reg) (s : State) : Host.Outcome State Fault Refusal :=
  finishStore (.calReg src) s (callTo (s.get src) s)

/-- RET (rule R179). -/
def execRet (s : State) : Host.Outcome State Fault Refusal := .next (popState s)

end Sys2Proof.Machine
end

