-- ==== Sys2Proof/Machine/DataMovement.lean ====
section
/-! DEFINITION. The data movement instructions (spec/41_data_movement.md). As for every meaning, the state begins with `ip`
past the instruction's last byte, so that reading register `ip` gives the address of the next instruction
(spec/40_fetch_decode_step.md rules R117, R118), and writing it is a jump (rule R134). -/

namespace Sys2Proof.Machine

/-- MOV_LIT_REG (rule R130). -/
def execMovLitReg (literal : Word) (dst : Reg) (s : State) : Host.Outcome State Fault Refusal :=
  .next (s.set dst literal)

/-- MOV_REG_REG (rule R131). -/
def execMovRegReg (src dst : Reg) (s : State) : Host.Outcome State Fault Refusal :=
  .next (s.set dst (s.get src))

/-- MOV_REG_MEM (rule R132). -/
def execMovRegMem (src : Reg) (address : Word) (s : State) : Host.Outcome State Fault Refusal :=
  finishStore (.movRegMem src address) s (store16 address (s.get src) s)

/-- MOV_MEM_REG (rule R133). -/
def execMovMemReg (address : Word) (dst : Reg) (s : State) : Host.Outcome State Fault Refusal :=
  .next (s.set dst (s.load16 address))

end Sys2Proof.Machine
end

