-- ==== Sys2Proof/Machine/Stack.lean ====
section
/-! DEFINITION. The stack instructions (spec/44_stack.md). -/

namespace Sys2Proof.Machine

/-- PSH_LIT (rule R163). -/
def execPshLit (literal : Word) (s : State) : Host.Outcome State Fault Refusal :=
  finishStore (.pshLit literal) s (push literal s)

/-- PSH_REG: the register is read before `Push` begins (rule R164). -/
def execPshReg (src : Reg) (s : State) : Host.Outcome State Fault Refusal :=
  finishStore (.pshReg src) s (push (s.get src) s)

/-- POP: the register is written last, so that a pop into `sp` leaves the popped word there (rule R165). -/
def execPop (dst : Reg) (s : State) : Host.Outcome State Fault Refusal :=
  .next (popInto dst s)

end Sys2Proof.Machine
end

