-- ==== Sys2Proof/Machine/Unassigned.lean ====
section
/-! DEFINITION. The unassigned opcodes (spec/46_unassigned_opcodes.md): sixteen rows of the table, one meaning. -/

namespace Sys2Proof.Machine

/-- The identity handler: the state, in which `ip` is already past the opcode byte, is unchanged (rules R200, R201). -/
def identityHandler (s : State) : Host.Outcome State Fault Refusal := .next s

/-- Unassigned 0x00 to 0x0F (rule R200). -/
def execUnassigned00To0F (s : State) : Host.Outcome State Fault Refusal := identityHandler s

/-- Unassigned 0x16 (rule R200). -/
def execUnassigned16 (s : State) : Host.Outcome State Fault Refusal := identityHandler s

/-- Unassigned 0x19 (rule R200). -/
def execUnassigned19 (s : State) : Host.Outcome State Fault Refusal := identityHandler s

/-- Unassigned 0x1B (rule R200). -/
def execUnassigned1B (s : State) : Host.Outcome State Fault Refusal := identityHandler s

/-- Unassigned 0x1C to 0x1F (rule R200). -/
def execUnassigned1CTo1F (s : State) : Host.Outcome State Fault Refusal := identityHandler s

/-- Unassigned 0x20 to 0x3F (rule R200). -/
def execUnassigned20To3F (s : State) : Host.Outcome State Fault Refusal := identityHandler s

/-- Unassigned 0x40 to 0x4F (rule R200). -/
def execUnassigned40To4F (s : State) : Host.Outcome State Fault Refusal := identityHandler s

/-- Unassigned 0x50 to 0x57 (rule R200). -/
def execUnassigned50To57 (s : State) : Host.Outcome State Fault Refusal := identityHandler s

/-- Unassigned 0x58 to 0x5B (rule R200). -/
def execUnassigned58To5B (s : State) : Host.Outcome State Fault Refusal := identityHandler s

/-- Unassigned 0x5C and 0x5D (rule R200). -/
def execUnassigned5CTo5D (s : State) : Host.Outcome State Fault Refusal := identityHandler s

/-- Unassigned 0x61 (rule R200). -/
def execUnassigned61 (s : State) : Host.Outcome State Fault Refusal := identityHandler s

/-- Unassigned 0x62 and 0x63 (rule R200). -/
def execUnassigned62To63 (s : State) : Host.Outcome State Fault Refusal := identityHandler s

/-- Unassigned 0x64 to 0x67 (rule R200). -/
def execUnassigned64To67 (s : State) : Host.Outcome State Fault Refusal := identityHandler s

/-- Unassigned 0x68 to 0x6F (rule R200). -/
def execUnassigned68To6F (s : State) : Host.Outcome State Fault Refusal := identityHandler s

/-- Unassigned 0x70 to 0x7F (rule R200). -/
def execUnassigned70To7F (s : State) : Host.Outcome State Fault Refusal := identityHandler s

/-- Unassigned 0x80 to 0xFF (rule R200). -/
def execUnassigned80ToFF (s : State) : Host.Outcome State Fault Refusal := identityHandler s

end Sys2Proof.Machine
end

