-- ==== Sys2Proof/Machine/Dispatch.lean ====
section
/-! DEFINITION. The meaning of each instruction: the handler the opcode selects (spec/40_fetch_decode_step.md rules R114,
R115), run on the state in which all of the instruction's bytes have been fetched (rule R117). -/

namespace Sys2Proof.Machine

def exec (i : Instr) (s : State) : Host.Outcome State Fault Refusal :=
  match i with
  | .movLitReg literal dst => Sys2Proof.Machine.execMovLitReg literal dst s
  | .movRegReg src dst => Sys2Proof.Machine.execMovRegReg src dst s
  | .movRegMem src address => Sys2Proof.Machine.execMovRegMem src address s
  | .movMemReg address dst => Sys2Proof.Machine.execMovMemReg address dst s
  | .addRegReg reg1 reg2 => Sys2Proof.Machine.execAddRegReg reg1 reg2 s
  | .jmpNotEq value address => Sys2Proof.Machine.execJmpNotEq value address s
  | .pshLit literal => Sys2Proof.Machine.execPshLit literal s
  | .pshReg src => Sys2Proof.Machine.execPshReg src s
  | .pop dst => Sys2Proof.Machine.execPop dst s
  | .calLit address => Sys2Proof.Machine.execCalLit address s
  | .calReg src => Sys2Proof.Machine.execCalReg src s
  | .ret => Sys2Proof.Machine.execRet s
  | .unassigned00To0F _ => Sys2Proof.Machine.execUnassigned00To0F s
  | .unassigned16 => Sys2Proof.Machine.execUnassigned16 s
  | .unassigned19 => Sys2Proof.Machine.execUnassigned19 s
  | .unassigned1B => Sys2Proof.Machine.execUnassigned1B s
  | .unassigned1CTo1F _ => Sys2Proof.Machine.execUnassigned1CTo1F s
  | .unassigned20To3F _ => Sys2Proof.Machine.execUnassigned20To3F s
  | .unassigned40To4F _ => Sys2Proof.Machine.execUnassigned40To4F s
  | .unassigned50To57 _ => Sys2Proof.Machine.execUnassigned50To57 s
  | .unassigned58To5B _ => Sys2Proof.Machine.execUnassigned58To5B s
  | .unassigned5CTo5D _ => Sys2Proof.Machine.execUnassigned5CTo5D s
  | .unassigned61 => Sys2Proof.Machine.execUnassigned61 s
  | .unassigned62To63 _ => Sys2Proof.Machine.execUnassigned62To63 s
  | .unassigned64To67 _ => Sys2Proof.Machine.execUnassigned64To67 s
  | .unassigned68To6F _ => Sys2Proof.Machine.execUnassigned68To6F s
  | .unassigned70To7F _ => Sys2Proof.Machine.execUnassigned70To7F s
  | .unassigned80ToFF _ => Sys2Proof.Machine.execUnassigned80ToFF s

end Sys2Proof.Machine
end

