-- ==== Sys2Proof/Machine/Operands.lean ====
section
/-! DEFINITION. The fetch unit (spec/40_fetch_decode_step.md rules R110 to R113) and the fetch of an instruction's operand
bytes in stream order (rule R117). A fetch reads at `ip`, moves `ip` on modulo 65536, never fails and changes nothing
else. -/

namespace Sys2Proof.Machine

/-- `Fetch8()` (rule R110). -/
def fetch8 (s : State) : Byte × State :=
  (s.mem.byteAt (s.get .ip).toNat, s.set .ip (s.get .ip + 1#16))

/-- `Fetch16()`: one 16-bit read, so that at `ip = 0xFFFF` the low byte comes from `0x10000` (rule R111). -/
def fetch16 (s : State) : Word × State :=
  (s.load16 (s.get .ip), s.set .ip (s.get .ip + 2#16))

/-- `FetchReg()` (rule R112). -/
def fetchReg (s : State) : Reg × State := (regOfByte (fetch8 s).1, (fetch8 s).2)

/-- The bytes of one operand, fetched by the fetch its kind takes (rules R81, R84, R85). -/
def fetchOperand (k : OperandKind) (s : State) : List Byte × State :=
  match k with
  | .reg => ([(fetch8 s).1], (fetch8 s).2)
  | .lit16 => ([highByte (fetch16 s).1, lowByte (fetch16 s).1], (fetch16 s).2)
  | .addr16 => ([highByte (fetch16 s).1, lowByte (fetch16 s).1], (fetch16 s).2)

/-- The bytes of a list of operands, in stream order. -/
def fetchOperands : List OperandKind → State → List Byte × State
  | [], s => ([], s)
  | k :: ks, s =>
    ((fetchOperand k s).1 ++ (fetchOperands ks (fetchOperand k s).2).1, (fetchOperands ks (fetchOperand k s).2).2)

/-- The bytes of the instruction at `ip`, as the fetch unit reads them, and the state with `ip` past them. -/
def fetchInstr (s : State) : List Byte × State :=
  ((fetch8 s).1 :: (fetchOperands (operandKinds (fetch8 s).1) (fetch8 s).2).1,
    (fetchOperands (operandKinds (fetch8 s).1) (fetch8 s).2).2)

end Sys2Proof.Machine
end

