-- ==== Sys2Proof/Machine/Execute.lean ====
section
/-! DEFINITION. From an opcode byte to the next state (spec/40_fetch_decode_step.md rules R115 to R117): fetch the operand
bytes the opcode asks for, decode, run the meaning. -/

namespace Sys2Proof.Machine

/-- The meaning of the instruction that `bytes` make, run on `s`, whose `ip` is past those bytes. -/
def runBytes (bytes : List Byte) (s : State) : Host.Outcome State Fault Refusal :=
  match decode bytes with
  | .ok (i, _) => exec i s
  | .error _ => .refused (.undecodable bytes)

/-- `execute(opcode)`: the operands are fetched from `ip` onward, and no opcode byte is (rule R116). -/
def execute (op : Byte) (s : State) : Host.Outcome State Fault Refusal :=
  runBytes (op :: (fetchOperands (operandKinds op) s).1) (fetchOperands (operandKinds op) s).2

/-- The cells of memory at `ip + k` (modulo 65536, those inside memory) after `bytes[k]` is placed in each; used to
place an instruction where it is fetched next. -/
def placeBytes (s : State) (at_ : Word) : List Byte → State
  | [] => s
  | b :: bs =>
    placeBytes (if at_.toNat < s.mem.size then s.setMem (s.mem.put at_.toNat b) else s) (at_ + 1#16) bs

end Sys2Proof.Machine
end

