-- ==== Sys2Proof/Machine/Step.lean ====
section
/-! DEFINITION. One step (spec/40_fetch_decode_step.md rule R115), and an instruction placed where it is fetched next. -/

namespace Sys2Proof.Machine

/-- `step()` is `execute(Fetch8())` (rules R115, R116): one trigger, one whole instruction (rule R119). -/
def step (s : State) : Host.Outcome State Fault Refusal := execute (fetch8 s).1 (fetch8 s).2

/-- The state with the instruction whose table bits are `w` stored at `ip` (log entry 14). Five bytes are written, the
ones past the instruction being 0; where five bytes do not fit between `ip` and the end of memory, those that fit. -/
def State.withFetchWord (s : State) (nbits w : Nat) : State := placeBytes s (s.get .ip) (tableBytes nbits w)

end Sys2Proof.Machine
end

