-- ==== Sys2Proof/Machine/Handlers.lean ====
section
/-! DEFINITION. The step as the spec's pseudocode writes it (spec/40_fetch_decode_step.md rule R115 and the first lines of
each instruction's rule): every handler fetches its own operands with `Fetch16` and `FetchReg`, and no decoder of bytes
stands between. The machine's `step` decodes the bytes instead; that the two agree is a statement of this package. -/

namespace Sys2Proof.Machine

/-- A handler with one register operand. -/
def handleReg (k : Reg → State → Host.Outcome State Fault Refusal) (s : State) : Host.Outcome State Fault Refusal :=
  k (fetchReg s).1 (fetchReg s).2

/-- A handler with one 16-bit operand. -/
def handleWord (k : Word → State → Host.Outcome State Fault Refusal) (s : State) : Host.Outcome State Fault Refusal :=
  k (fetch16 s).1 (fetch16 s).2

/-- The handler that an opcode byte selects, entered with `ip` at the first operand byte (rules R114, R115). -/
def handler (op : Byte) : State → Host.Outcome State Fault Refusal :=
  if op = 0x10#8 then handleWord fun literal => handleReg fun d => execMovLitReg literal d
  else if op = 0x11#8 then handleReg fun a => handleReg fun d => execMovRegReg a d
  else if op = 0x12#8 then handleReg fun a => handleWord fun address => execMovRegMem a address
  else if op = 0x13#8 then handleWord fun address => handleReg fun d => execMovMemReg address d
  else if op = 0x14#8 then handleReg fun a => handleReg fun b => execAddRegReg a b
  else if op = 0x15#8 then handleWord fun value => handleWord fun address => execJmpNotEq value address
  else if op = 0x17#8 then handleWord fun literal => execPshLit literal
  else if op = 0x18#8 then handleReg fun a => execPshReg a
  else if op = 0x1A#8 then handleReg fun d => execPop d
  else if op = 0x5E#8 then handleWord fun address => execCalLit address
  else if op = 0x5F#8 then handleReg fun a => execCalReg a
  else if op = 0x60#8 then execRet
  else identityHandler

/-- `step()` of rule R115: fetch the opcode, run its handler. -/
def handlerStep (s : State) : Host.Outcome State Fault Refusal := handler (fetch8 s).1 (fetch8 s).2

end Sys2Proof.Machine
end

