-- ==== Sys2Proof/Machine/HostInterface.lean ====
section
/-! DEFINITION. What the block offers the host between steps (spec/70_reset_and_hazards.md rules R240 to R244): reads of
registers and memory, which change nothing, and commands, each of which takes a whole state to a whole state. -/

namespace Sys2Proof.Machine

/-- The twelve registers in index order (spec/10_state.md rule R21). -/
def allRegs : List Reg := [.ip, .acc, .r1, .r2, .r3, .r4, .r5, .r6, .r7, .r8, .sp, .fp]

/-- The register's name (rule R21). -/
def nameOfReg : Reg → String
  | .ip => "ip" | .acc => "acc" | .r1 => "r1" | .r2 => "r2" | .r3 => "r3" | .r4 => "r4"
  | .r5 => "r5" | .r6 => "r6" | .r7 => "r7" | .r8 => "r8" | .sp => "sp" | .fp => "fp"

/-- The fixed name to register table (spec/10_state.md rule R22): `none` for any other name. -/
def regOfName (name : String) : Option Reg := allRegs.find? fun r => nameOfReg r == name

/-- Register `get` (rule R242). -/
def hostGetReg (r : Reg) (s : State) : Word := s.get r

/-- Register `set`: `sfs` does not change (rule R242). -/
def hostSetReg (r : Reg) (v : Word) (s : State) : State := s.set r v

/-- Register `get` by name; `none` for a name that is none of the twelve (U5). -/
def hostGetNamed (name : String) (s : State) : Option Word := (regOfName name).map fun r => hostGetReg r s

/-- Register `set` by name, refused for a name that is none of the twelve (U5). -/
def hostSetNamed (name : String) (v : Word) (s : State) : Host.Outcome State Fault Refusal :=
  match regOfName name with
  | some r => .next (hostSetReg r v s)
  | none => .refused (.unknownRegisterName name)

/-- Memory `get` (rules R52, R242). -/
def hostGet8 (a : Nat) (s : State) : Byte := s.mem.byteAt a

/-- Memory `get16` (rules R53, R242). -/
def hostGet16 (a : Nat) (s : State) : Word := s.mem.read16 a

/-- `show` (rule R71). -/
def hostShow (a len : Nat) (s : State) : List Byte := s.mem.window a len

/-- A host write: refused as a whole where it does not lie inside memory (U2). -/
def hostWrite (address len : Nat) (s : State) : Option Memory → Host.Outcome State Fault Refusal
  | some m => .next (s.setMem m)
  | none => .refused (.hostStoreOutOfRange address len)

/-- Memory `set` (rules R55, R57). -/
def hostSet8 (a : Nat) (b : Byte) (s : State) : Host.Outcome State Fault Refusal :=
  hostWrite a 1 s (s.mem.write8 a b)

/-- Memory `set16` (rules R56, R58). -/
def hostSet16 (a : Nat) (v : Word) (s : State) : Host.Outcome State Fault Refusal :=
  hostWrite a 2 s (s.mem.write16 a v)

/-- `setBlock` (rule R71). -/
def hostSetBlock (a : Nat) (bs : List Byte) (s : State) : Host.Outcome State Fault Refusal :=
  hostWrite a bs.length s (s.mem.setBlock a bs)

/-- One hexadecimal digit. -/
def hexDigit (n : Nat) : Char := "0123456789ABCDEF".toList.getD n '0'

/-- A word as four hexadecimal digits, most significant first (log entry 16). -/
def hexOfWord (w : Word) : String :=
  String.ofList [hexDigit (w.toNat / 4096 % 16), hexDigit (w.toNat / 256 % 16), hexDigit (w.toNat / 16 % 16),
    hexDigit (w.toNat % 16)]

/-- The register dump: all twelve names with their values (rules R221, R242). -/
def registerDump (s : State) : List (String × String) := allRegs.map fun r => (nameOfReg r, hexOfWord (s.get r))

/-- Creation of a machine with `size` bytes of memory, refused outside `2..65536` (rules R240, U7). -/
def hostCreate (size : Nat) : Host.Outcome State Fault Refusal :=
  if memSizeOk size then .next (State.resetOfSize size) else .refused (.memSizeNotPermitted size)

/-- What the host may do to a running machine between steps (rules R241 to R244). -/
inductive HostCommand where
  /-- the step trigger, rule R243 -/
  | trigger
  /-- `execute(opcode)` with an opcode byte of the host's, spec/40_fetch_decode_step.md rule R116 -/
  | execute (op : Byte)
  /-- register `set` -/
  | setReg (r : Reg) (v : Word)
  /-- register `set` by name -/
  | setNamed (name : String) (v : Word)
  /-- memory `set` -/
  | set8 (address : Nat) (b : Byte)
  /-- memory `set16` -/
  | set16 (address : Nat) (v : Word)
  /-- `setBlock` -/
  | setBlock (address : Nat) (bytes : List Byte)
  /-- the reset input, rule R241 -/
  | reset
deriving DecidableEq, Repr

/-- One host command. A reset keeps only the `MEM_SIZE` the machine was built with (rule R241). -/
def hostApply (c : HostCommand) (s : State) : Host.Outcome State Fault Refusal :=
  match c with
  | .trigger => step s
  | .execute op => execute op s
  | .setReg r v => .next (hostSetReg r v s)
  | .setNamed name v => hostSetNamed name v s
  | .set8 a b => hostSet8 a b s
  | .set16 a v => hostSet16 a v s
  | .setBlock a bs => hostSetBlock a bs s
  | .reset => .next (State.resetOfSize s.mem.size)

end Sys2Proof.Machine
end

