-- ==== Sys2Proof/Safety.lean ====
section
/-! DEFINITION. The terms in which claims about this machine are made: what an instruction stores to and which registers it
may write, what stays the same, when a run is safe, and the invariant of the state. -/

namespace Sys2Proof.Machine

/-- The places in an instruction's bytes at which a register operand stands, by its opcode byte: the table of
spec/30_encoding.md rule R83, written out beside the decoder and not taken from it. -/
def registerPlaces (op : Byte) : List Nat :=
  if op ∈ [0x10#8, 0x13#8] then [3]
  else if op ∈ [0x11#8, 0x14#8] then [1, 2]
  else if op ∈ [0x12#8, 0x18#8, 0x1A#8, 0x5F#8] then [1]
  else []

/-- The addresses of the ten words a call pushes, for `sp` before the call: `sp`, `sp - 2`, …, `sp - 18`, modulo 65536
(spec/20_memory.md rule R62). -/
def frameSlots (sp : Word) : List Word :=
  [sp, sp - 2#16, sp - 4#16, sp - 6#16, sp - 8#16, sp - 10#16, sp - 12#16, sp - 14#16, sp - 16#16, sp - 18#16]

/-- The addresses of the 16-bit stores of an instruction, in order (spec/20_memory.md rule R62). -/
def storeAddresses (i : Instr) (s : State) : List Word :=
  match i with
  | .movRegMem _ address => [address]
  | .pshLit _ => [s.get .sp]
  | .pshReg _ => [s.get .sp]
  | .calLit _ => frameSlots (s.get .sp)
  | .calReg _ => frameSlots (s.get .sp)
  | .movLitReg _ _ => []
  | .movRegReg _ _ => []
  | .movMemReg _ _ => []
  | .addRegReg _ _ => []
  | .jmpNotEq _ _ => []
  | .pop _ => []
  | .ret => []
  | .unassigned00To0F _ => []
  | .unassigned16 => []
  | .unassigned19 => []
  | .unassigned1B => []
  | .unassigned1CTo1F _ => []
  | .unassigned20To3F _ => []
  | .unassigned40To4F _ => []
  | .unassigned50To57 _ => []
  | .unassigned58To5B _ => []
  | .unassigned5CTo5D _ => []
  | .unassigned61 => []
  | .unassigned62To63 _ => []
  | .unassigned64To67 _ => []
  | .unassigned68To6F _ => []
  | .unassigned70To7F _ => []
  | .unassigned80ToFF _ => []

/-- Both bytes of a 16-bit store at `a` lie inside memory (spec/20_memory.md rule R58). -/
def inRange (s : State) (a : Word) : Bool := decide (a.toNat + 1 < s.mem.size)

/-- What software must guarantee for an instruction (spec/70_reset_and_hazards.md rule R250). -/
def storesInRange (i : Instr) (s : State) : Prop := ∀ a ∈ storeAddresses i s, inRange s a = true

/-- The registers an instruction may write, beside the advance of `ip` by the fetch (spec/10_state.md rule R21, the rules
of the instructions). -/
def writtenRegs : Instr → List Reg
  | .movLitReg _ dst => [dst]
  | .movRegReg _ dst => [dst]
  | .movRegMem _ _ => []
  | .movMemReg _ dst => [dst]
  | .addRegReg _ _ => [.acc]
  | .jmpNotEq _ _ => [.ip]
  | .pshLit _ => [.sp]
  | .pshReg _ => [.sp]
  | .pop dst => [.sp, dst]
  | .calLit _ => [.sp, .fp, .ip]
  | .calReg _ => [.sp, .fp, .ip]
  | .ret => [.sp, .fp, .ip, .r1, .r2, .r3, .r4, .r5, .r6, .r7, .r8]
  | .unassigned00To0F _ => []
  | .unassigned16 => []
  | .unassigned19 => []
  | .unassigned1B => []
  | .unassigned1CTo1F _ => []
  | .unassigned20To3F _ => []
  | .unassigned40To4F _ => []
  | .unassigned50To57 _ => []
  | .unassigned58To5B _ => []
  | .unassigned5CTo5D _ => []
  | .unassigned61 => []
  | .unassigned62To63 _ => []
  | .unassigned64To67 _ => []
  | .unassigned68To6F _ => []
  | .unassigned70To7F _ => []
  | .unassigned80ToFF _ => []

/-- The destination register that an instruction's operand names, where it has one (spec/10_state.md rule R23). -/
def destination : Instr → Option Reg
  | .movLitReg _ dst => some dst
  | .movRegReg _ dst => some dst
  | .movMemReg _ dst => some dst
  | .pop dst => some dst
  | .movRegMem _ _ => none
  | .addRegReg _ _ => none
  | .jmpNotEq _ _ => none
  | .pshLit _ => none
  | .pshReg _ => none
  | .calLit _ => none
  | .calReg _ => none
  | .ret => none
  | .unassigned00To0F _ => none
  | .unassigned16 => none
  | .unassigned19 => none
  | .unassigned1B => none
  | .unassigned1CTo1F _ => none
  | .unassigned20To3F _ => none
  | .unassigned40To4F _ => none
  | .unassigned50To57 _ => none
  | .unassigned58To5B _ => none
  | .unassigned5CTo5D _ => none
  | .unassigned61 => none
  | .unassigned62To63 _ => none
  | .unassigned64To67 _ => none
  | .unassigned68To6F _ => none
  | .unassigned70To7F _ => none
  | .unassigned80ToFF _ => none

/-- What an instruction adds to `sfs`, modulo 65536: 2 for each push, -2 for each pop (spec/10_state.md rule R31); a return
pops eleven words and as many more as the word at `fp + 22` says (spec/45_call_return.md rule R178). -/
def sfsChange (i : Instr) (s : State) : Word :=
  match i with
  | .pshLit _ => 2#16
  | .pshReg _ => 2#16
  | .pop _ => -2#16
  | .calLit _ => 20#16
  | .calReg _ => 20#16
  | .ret => -(22#16 + 2#16 * s.mem.read16 (s.get .fp + 22#16).toNat)
  | .movLitReg _ _ => 0#16
  | .movRegReg _ _ => 0#16
  | .movRegMem _ _ => 0#16
  | .movMemReg _ _ => 0#16
  | .addRegReg _ _ => 0#16
  | .jmpNotEq _ _ => 0#16
  | .unassigned00To0F _ => 0#16
  | .unassigned16 => 0#16
  | .unassigned19 => 0#16
  | .unassigned1B => 0#16
  | .unassigned1CTo1F _ => 0#16
  | .unassigned20To3F _ => 0#16
  | .unassigned40To4F _ => 0#16
  | .unassigned50To57 _ => 0#16
  | .unassigned58To5B _ => 0#16
  | .unassigned5CTo5D _ => 0#16
  | .unassigned61 => 0#16
  | .unassigned62To63 _ => 0#16
  | .unassigned64To67 _ => 0#16
  | .unassigned68To6F _ => 0#16
  | .unassigned70To7F _ => 0#16
  | .unassigned80ToFF _ => 0#16

/-- Every register outside the list reads in `t` as in `s`. -/
def SameRegsBut (written : List Reg) (s t : State) : Prop := ∀ r, r ∉ written → t.get r = s.get r

/-- Every byte of memory reads in `t` as in `s`, and the size is the same. -/
def SameMemory (s t : State) : Prop := t.mem.size = s.mem.size ∧ ∀ a, t.mem.byteAt a = s.mem.byteAt a

/-- Every byte of memory that belongs to no 16-bit store at one of `addresses` reads in `t` as in `s`, and the size is
the same. -/
def SameMemoryBut (addresses : List Word) (s t : State) : Prop :=
  t.mem.size = s.mem.size ∧
    ∀ a, (∀ w ∈ addresses, a ≠ w.toNat ∧ a ≠ w.toNat + 1) → t.mem.byteAt a = s.mem.byteAt a

/-- The bytes that the fetch unit reads at `ip` are `bytes`, and a step there runs `i` on the state whose `ip` is past
them (spec/40_fetch_decode_step.md rules R115, R117). -/
def StepsAs (bytes : List Byte) (i : Instr) : Prop :=
  ∀ s : State, (fetchInstr s).1 = bytes → step s = exec i (s.set .ip (s.get .ip + BitVec.ofNat 16 bytes.length))

/-- `t` is what `Push(v)` makes of `s` (spec/44_stack.md rule R160): the word at the old `sp`, `sp` lower by 2, `sfs`
higher by 2, and nothing else. -/
def Pushed (v : Word) (s t : State) : Prop :=
  t.mem.byteAt (s.get .sp).toNat = highByte v ∧ t.mem.byteAt ((s.get .sp).toNat + 1) = lowByte v ∧
    t.get .sp = s.get .sp - 2#16 ∧ t.sfs = s.sfs + 2#16 ∧ SameRegsBut [.sp] s t ∧ SameMemoryBut [s.get .sp] s t

/-- `t` is what a call to `target` makes of `s` (spec/45_call_return.md rules R175, R180): the ten words of the frame,
`sp` and `fp` at the free slot below it, `sfs` higher by 20, `ip` at the target, and nothing else. -/
def Called (target : Word) (s t : State) : Prop :=
  t.mem.read16 (s.get .sp).toNat = s.get .r1 ∧ t.mem.read16 (s.get .sp - 2#16).toNat = s.get .r2 ∧
    t.mem.read16 (s.get .sp - 4#16).toNat = s.get .r3 ∧ t.mem.read16 (s.get .sp - 6#16).toNat = s.get .r4 ∧
    t.mem.read16 (s.get .sp - 8#16).toNat = s.get .r5 ∧ t.mem.read16 (s.get .sp - 10#16).toNat = s.get .r6 ∧
    t.mem.read16 (s.get .sp - 12#16).toNat = s.get .r7 ∧ t.mem.read16 (s.get .sp - 14#16).toNat = s.get .r8 ∧
    t.mem.read16 (s.get .sp - 16#16).toNat = s.get .ip ∧ t.mem.read16 (s.get .sp - 18#16).toNat = s.sfs + 20#16 ∧
    t.get .sp = s.get .sp - 20#16 ∧ t.get .fp = s.get .sp - 20#16 ∧ t.sfs = s.sfs + 20#16 ∧ t.get .ip = target ∧
    SameRegsBut [.sp, .fp, .ip] s t ∧ SameMemoryBut (frameSlots (s.get .sp)) s t

/-- The memory of every state the machine can be in: a permitted size and the canonical form. -/
def State.Inv (s : State) : Prop := s.mem.wf = true

/-- The step has a successor state; what a theorem about a program assumes of each of its steps
(spec/93_implementation_defined.md U1). -/
def StepSafe (s : State) : Prop := ∃ t, step s = .next t

/-- `k` steps, each with a successor state. -/
def RunSafe (k : Nat) (s : State) : Prop := ∃ t, Sys2Proof.core.run k s = .next t

/-- `t` follows from `s` by host commands and steps. -/
inductive Reaches : State → State → Prop where
  /-- no command -/
  | refl (s : State) : Reaches s s
  /-- one more command -/
  | tail (s t u : State) (c : HostCommand) : Reaches s t → hostApply c t = .next u → Reaches s u

end Sys2Proof.Machine
end

