-- ==== Sys2Proof/Certificates/Slice0/Obligations.lean ====
section
/-! DEFINITION. The statements about this machine, each with the rule of the spec it comes from. As everywhere in this
package, a meaning (`exec i s`) begins in a state whose `ip` is past the instruction's last byte
(spec/40_fetch_decode_step.md rules R117, R118). -/

open Sys2Proof Sys2Proof.Machine

/-! ### Encoding -/

/-- R85: a register operand byte selects the register of number `b mod 12`, by the rule's own table. -/
def Obligations.RegisterByteSelectsItsResidueModuloTwelve : Prop :=
  ∀ b : Byte,
    (b.toNat % 12 = 0 → regOfByte b = .ip) ∧ (b.toNat % 12 = 1 → regOfByte b = .acc) ∧
    (b.toNat % 12 = 2 → regOfByte b = .r1) ∧ (b.toNat % 12 = 3 → regOfByte b = .r2) ∧
    (b.toNat % 12 = 4 → regOfByte b = .r3) ∧ (b.toNat % 12 = 5 → regOfByte b = .r4) ∧
    (b.toNat % 12 = 6 → regOfByte b = .r5) ∧ (b.toNat % 12 = 7 → regOfByte b = .r6) ∧
    (b.toNat % 12 = 8 → regOfByte b = .r7) ∧ (b.toNat % 12 = 9 → regOfByte b = .r8) ∧
    (b.toNat % 12 = 10 → regOfByte b = .sp) ∧ (b.toNat % 12 = 11 → regOfByte b = .fp)

/-- Words written out from the encodings of spec/30_encoding.md and the source's own byte listings
(spec/95_test_vectors.md S8, S9) decode to the instructions they stand for. -/
def Obligations.WordsOfTheSpecDecode : Prop :=
  decode [0x10#8, 0x12#8, 0x34#8, 0x02#8] = .ok (.movLitReg 0x1234#16 .r1, []) ∧
    decode [0x11#8, 0x02#8, 0x05#8] = .ok (.movRegReg .r1 .r4, []) ∧
    decode [0x12#8, 0x01#8, 0x01#8, 0x00#8] = .ok (.movRegMem .acc 0x0100#16, []) ∧
    decode [0x13#8, 0x01#8, 0x00#8, 0x03#8] = .ok (.movMemReg 0x0100#16 .r2, []) ∧
    decode [0x14#8, 0x0E#8, 0xFF#8] = .ok (.addRegReg .r1 .r2, []) ∧
    decode [0x15#8, 0x00#8, 0x03#8, 0x00#8, 0x04#8] = .ok (.jmpNotEq 0x0003#16 0x0004#16, []) ∧
    decode [0x17#8, 0x12#8, 0x34#8, 0x1A#8, 0x02#8] = .ok (.pshLit 0x1234#16, [0x1A#8, 0x02#8]) ∧
    decode [0x5E#8, 0x01#8, 0x00#8] = .ok (.calLit 0x0100#16, []) ∧
    decode [0x5F#8, 0x0A#8] = .ok (.calReg .sp, []) ∧ decode [0x60#8] = .ok (.ret, []) ∧
    decode [0x16#8, 0x02#8] = .ok (.unassigned16, [0x02#8])

/-- Decode and encode agree on every instruction, with every operand at every value, whatever bytes follow. -/
def Obligations.EveryInstructionDecodesFromItsEncoding : Prop :=
  ∀ (i : Instr) (rest : List Byte), decode (encode i ++ rest) = .ok (i, rest)

/-- The other direction: the bytes that decode to an instruction are its encoding, byte for byte, but at the places where
R83 puts a register operand; there the byte may be any that selects the register (R85), and the encoding has the canonical
one (R86): that an instruction holds the register and not its byte is the model's choice (log entry 19). No other bit is
dropped. -/
def Obligations.DecodedBytesAreTheEncodingUpToRegisterBytes : Prop :=
  ∀ (op : Byte) (bs rest : List Byte) (i : Instr), decode (op :: bs) = .ok (i, rest) →
    ∃ front, op :: bs = front ++ rest ∧ front.length = i.length ∧ (encode i).length = i.length ∧
      ∀ (k : Nat) (b : Byte), front[k]? = some b →
        (encode i)[k]? = some (if k ∈ registerPlaces op then (regOfByte b).byte else b)

/-- R88: the length of an instruction is a function of its opcode byte alone, with the rule's table of lengths. -/
def Obligations.LengthIsAFunctionOfTheOpcodeByte : Prop :=
  ∀ (op : Byte) (bs rest : List Byte) (i : Instr), decode (op :: bs) = .ok (i, rest) →
    i.length + rest.length = 1 + bs.length ∧
      i.length =
        if op ∈ [0x10#8, 0x12#8, 0x13#8] then 4
        else if op ∈ [0x11#8, 0x14#8, 0x17#8, 0x5E#8] then 3
        else if op = 0x15#8 then 5
        else if op ∈ [0x18#8, 0x1A#8, 0x5F#8] then 2
        else 1

/-- R90, R114: no opcode byte and no operand byte is illegal, so that every list that is long enough for its opcode byte
decodes. That the decoder rejects a list that ends before the instruction does is the model's choice (log entry 12): the
machine knows no such list. -/
def Obligations.DecodingFailsOnlyOnMissingBytes : Prop :=
  ∀ (op : Byte) (bs : List Byte),
    (∃ i rest, decode (op :: bs) = .ok (i, rest)) ↔ lengthOfOpcode op ≤ 1 + bs.length

/-! ### Fetch and step -/

/-- R110, R112: `Fetch8` returns the byte at `ip`, `FetchReg` that byte reduced to a register, and each moves `ip` on by
1, modulo 65536, and changes nothing else. -/
def Obligations.ByteFetchReadsAtIpAndAdvancesIt : Prop :=
  ∀ s : State,
    (fetch8 s).1 = s.mem.byteAt (s.get .ip).toNat ∧ (fetch8 s).2.get .ip = s.get .ip + 1#16 ∧
    SameRegsBut [.ip] s (fetch8 s).2 ∧ (fetch8 s).2.sfs = s.sfs ∧ SameMemory s (fetch8 s).2 ∧
    (fetchReg s).1.number = (s.mem.byteAt (s.get .ip).toNat).toNat % 12 ∧ (fetchReg s).2 = (fetch8 s).2

/-- R111: `Fetch16` is one big-endian read that moves `ip` on by 2. At `ip = 0xFFFF` its low byte comes from `0x10000`,
outside every memory, and is 0: the spec's decision D6 (log entry 5). -/
def Obligations.WordFetchIsOneReadEvenAtTheTopAddress : Prop :=
  ∀ s : State, s.Inv →
    (fetch16 s).1.toNat =
      (s.mem.byteAt (s.get .ip).toNat).toNat * 256 + (s.mem.byteAt ((s.get .ip).toNat + 1)).toNat ∧
    (s.get .ip = 0xFFFF#16 → (fetch16 s).1.toNat = (s.mem.byteAt 0xFFFF).toNat * 256) ∧
    (fetch16 s).2.get .ip = s.get .ip + 2#16 ∧ SameRegsBut [.ip] s (fetch16 s).2 ∧ (fetch16 s).2.sfs = s.sfs ∧
    SameMemory s (fetch16 s).2

/-- A step runs the decoded instruction: where the bytes at `ip` decode to `i`, the fetch unit has read exactly the bytes
of `i`, and the step is `exec` of `i` on the state whose `ip` is past them and which is otherwise the same. -/
def Obligations.StepRunsTheDecodedInstruction : Prop :=
  ∀ (s : State) (i : Instr) (rest : List Byte), decode (fetchInstr s).1 = .ok (i, rest) →
    rest = [] ∧ step s = exec i (s.set .ip (s.get .ip + BitVec.ofNat 16 i.length))

/-- An instruction whose encoding stands in memory at `ip`, not running past address `0xFFFF`, is what the step runs. -/
def Obligations.EncodingInMemoryIsWhatTheStepRuns : Prop :=
  ∀ (s : State) (i : Instr), (s.get .ip).toNat + i.length ≤ 65536 →
    (∀ (k : Nat) (b : Byte), (encode i)[k]? = some b → s.mem.byteAt ((s.get .ip).toNat + k) = b) →
    step s = exec i (s.set .ip (s.get .ip + BitVec.ofNat 16 i.length))

/-- R90, R119: no step is refused: whatever the bytes at `ip`, they decode and their instruction has its meaning. -/
def Obligations.StepIsNeverRefused : Prop :=
  ∀ (s : State) (r : Refusal), step s ≠ .refused r

/-- R115, R116: the machine that decodes the bytes first agrees, on every state and every opcode byte, with the spec's
pseudocode, in which every handler fetches its own operands with `Fetch16` and `FetchReg`. That a handler fetches all its
operands before it reads a register, on both sides, is the spec's decision D8 (log entry 7). -/
def Obligations.DecodeThenRunAgreesWithTheHandlers : Prop :=
  (∀ s : State, step s = handlerStep s) ∧ ∀ (op : Byte) (s : State), execute op s = handler op s

/-- R26: with `ip` outside memory the step is a no-op of one byte; the core never stops on running off the end. -/
def Obligations.StepOutsideMemoryIsANoOp : Prop :=
  ∀ s : State, s.mem.size ≤ (s.get .ip).toNat → step s = .next (s.set .ip (s.get .ip + 1#16))

/-- R91, R200: memory that holds only zeros runs as no-ops, one byte a step, for any number of steps, through the wrap of
`ip` from `0xFFFF` to 0. -/
def Obligations.ZeroedMemoryRunsAsNoOps : Prop :=
  ∀ (k : Nat) (s : State), (∀ a, s.mem.byteAt a = 0#8) →
    Sys2Proof.core.run k s = .next (s.set .ip (s.get .ip + BitVec.ofNat 16 k))

/-! ### Data movement -/

/-- R130: MOV_LIT_REG, its encoding and its effect; with destination `ip` the final `ip` is the literal. -/
def Obligations.MovLitRegLoadsItsLiteral : Prop :=
  (∀ h l b : Byte, StepsAs [0x10#8, h, l, b] (.movLitReg (wordOfBytes h l) (regOfByte b))) ∧
    ∀ (literal : Word) (dst : Reg) (s : State), ∃ t, exec (.movLitReg literal dst) s = .next t ∧
      t.get dst = literal ∧ SameRegsBut [dst] s t ∧ t.sfs = s.sfs ∧ SameMemory s t

/-- R131: MOV_REG_REG, its encoding and its effect. -/
def Obligations.MovRegRegCopiesItsSource : Prop :=
  (∀ a b : Byte, StepsAs [0x11#8, a, b] (.movRegReg (regOfByte a) (regOfByte b))) ∧
    ∀ (src dst : Reg) (s : State), ∃ t, exec (.movRegReg src dst) s = .next t ∧
      t.get dst = s.get src ∧ SameRegsBut [dst] s t ∧ t.sfs = s.sfs ∧ SameMemory s t

/-- R132: MOV_REG_MEM, its encoding and its effect: high byte at the address, low byte after it, and nothing else; the
undefined store has no successor state (the fault it ends in: `OnlyAStoreOutOfRangeStopsAnInstruction`). -/
def Obligations.MovRegMemStoresBigEndian : Prop :=
  (∀ a h l : Byte, StepsAs [0x12#8, a, h, l] (.movRegMem (regOfByte a) (wordOfBytes h l))) ∧
    (∀ (src : Reg) (address : Word) (s : State), address.toNat + 1 < s.mem.size →
      ∃ t, exec (.movRegMem src address) s = .next t ∧
        t.mem.byteAt address.toNat = highByte (s.get src) ∧ t.mem.byteAt (address.toNat + 1) = lowByte (s.get src) ∧
        SameRegsBut [] s t ∧ t.sfs = s.sfs ∧ SameMemoryBut [address] s t) ∧
    ∀ (src : Reg) (address : Word) (s t : State), s.mem.size ≤ address.toNat + 1 →
      exec (.movRegMem src address) s ≠ .next t

/-- R133: MOV_MEM_REG, its encoding and its effect, from any address: an out-of-range byte reads as 0 (R51). With the
rule's property from the source (spec/95_test_vectors.md S3): a store followed by a load of the same address gives the
register stored, whatever happens to the registers between the two. -/
def Obligations.MovMemRegLoadsBigEndian : Prop :=
  (∀ h l b : Byte, StepsAs [0x13#8, h, l, b] (.movMemReg (wordOfBytes h l) (regOfByte b))) ∧
    (∀ (address : Word) (dst : Reg) (s : State), ∃ t, exec (.movMemReg address dst) s = .next t ∧
      (t.get dst).toNat =
        (s.mem.byteAt address.toNat).toNat * 256 + (s.mem.byteAt (address.toNat + 1)).toNat ∧
      (s.mem.size ≤ address.toNat → t.get dst = 0#16) ∧
      (s.mem.size = address.toNat + 1 → (t.get dst).toNat = (s.mem.byteAt address.toNat).toNat * 256) ∧
      SameRegsBut [dst] s t ∧ t.sfs = s.sfs ∧ SameMemory s t) ∧
    ∀ (src dst : Reg) (address : Word) (s t u : State), exec (.movRegMem src address) s = .next t → u.mem = t.mem →
      ∃ v, exec (.movMemReg address dst) u = .next v ∧ v.get dst = s.get src

/-- R69: a store over the next instruction is what the very next fetch reads: the opcode byte and the byte after it. -/
def Obligations.StoreOverTheNextInstructionIsFetched : Prop :=
  ∀ (src : Reg) (s t : State), exec (.movRegMem src (s.get .ip)) s = .next t →
    (fetch8 t).1 = highByte (s.get src) ∧ (fetch16 t).1 = s.get src

/-! ### Arithmetic and branch -/

/-- R140: ADD_REG_REG, its encoding and its effect: the sum modulo 65536 goes to `acc`; both sources are read first. -/
def Obligations.AddRegRegWritesTheSumModulo65536 : Prop :=
  (∀ a b : Byte, StepsAs [0x14#8, a, b] (.addRegReg (regOfByte a) (regOfByte b))) ∧
    ∀ (reg1 reg2 : Reg) (s : State), ∃ t, exec (.addRegReg reg1 reg2) s = .next t ∧
      (t.get .acc).toNat = ((s.get reg1).toNat + (s.get reg2).toNat) % 65536 ∧
      SameRegsBut [.acc] s t ∧ t.sfs = s.sfs ∧ SameMemory s t

/-- R150: JMP_NOT_EQ, its encoding and its effect: `ip` becomes the address where the value differs from `acc` and stays
past the instruction where it does not. -/
def Obligations.JmpNotEqJumpsExactlyOnDifference : Prop :=
  (∀ h l th tl : Byte, StepsAs [0x15#8, h, l, th, tl] (.jmpNotEq (wordOfBytes h l) (wordOfBytes th tl))) ∧
    ∀ (value address : Word) (s : State), ∃ t, exec (.jmpNotEq value address) s = .next t ∧
      (value ≠ s.get .acc → t.get .ip = address) ∧ (value = s.get .acc → t.get .ip = s.get .ip) ∧
      SameRegsBut [.ip] s t ∧ t.sfs = s.sfs ∧ SameMemory s t

/-! ### Stack -/

/-- R163 with R160: PSH_LIT, its encoding and its effect; the undefined store has no successor state. -/
def Obligations.PshLitPushesItsLiteral : Prop :=
  (∀ h l : Byte, StepsAs [0x17#8, h, l] (.pshLit (wordOfBytes h l))) ∧
    (∀ (literal : Word) (s : State), (s.get .sp).toNat + 1 < s.mem.size →
      ∃ t, exec (.pshLit literal) s = .next t ∧ Pushed literal s t) ∧
    ∀ (literal : Word) (s t : State), s.mem.size ≤ (s.get .sp).toNat + 1 → exec (.pshLit literal) s ≠ .next t

/-- R164 with R160: PSH_REG, its encoding and its effect; the undefined store has no successor state; the register, `sp`
included, is read before the push. With the rule's property from the source (spec/95_test_vectors.md S5): a push of a register and then a pop
give the register's value, and `sp` (unless it is the pop's destination) and `sfs` are back; between the two only registers
other than `sp` may have changed. -/
def Obligations.PshRegPushesTheRegister : Prop :=
  (∀ a : Byte, StepsAs [0x18#8, a] (.pshReg (regOfByte a))) ∧
    (∀ (src : Reg) (s : State), (s.get .sp).toNat + 1 < s.mem.size →
      ∃ t, exec (.pshReg src) s = .next t ∧ Pushed (s.get src) s t) ∧
    (∀ (src : Reg) (s t : State), s.mem.size ≤ (s.get .sp).toNat + 1 → exec (.pshReg src) s ≠ .next t) ∧
    ∀ (src dst : Reg) (s t u : State), exec (.pshReg src) s = .next t →
      u.mem = t.mem → u.sfs = t.sfs → u.get .sp = t.get .sp →
      ∃ v, exec (.pop dst) u = .next v ∧ v.get dst = s.get src ∧ (dst ≠ .sp → v.get .sp = s.get .sp) ∧ v.sfs = s.sfs

/-- R165 with R161: POP, its encoding and its effect: `sp` up by 2 first, `sfs` down by 2, the word at the new `sp` into
the register; with destination `sp` the popped word is what stays. -/
def Obligations.PopLoadsTheWordAboveSp : Prop :=
  (∀ b : Byte, StepsAs [0x1A#8, b] (.pop (regOfByte b))) ∧
    ∀ (dst : Reg) (s : State), ∃ t, exec (.pop dst) s = .next t ∧
      (t.get dst).toNat = (s.mem.byteAt (s.get .sp + 2#16).toNat).toNat * 256 +
        (s.mem.byteAt ((s.get .sp + 2#16).toNat + 1)).toNat ∧
      (dst ≠ .sp → t.get .sp = s.get .sp + 2#16) ∧ t.sfs = s.sfs - 2#16 ∧
      SameRegsBut [.sp, dst] s t ∧ SameMemory s t

/-- R162: the net effect by which the model discards words is that of the loop of pops. -/
def Obligations.PopNIsRepeatedPop : Prop :=
  ∀ (n : Word) (s : State), popN n s = popRepeatedly n.toNat s

/-! ### Call and return -/

/-- R176 with R175: CAL_LIT, its encoding, the frame it builds and the jump; where one of the ten stores is out of range
there is no successor state. -/
def Obligations.CalLitBuildsTheFrameAndJumps : Prop :=
  (∀ h l : Byte, StepsAs [0x5E#8, h, l] (.calLit (wordOfBytes h l))) ∧
    (∀ (address : Word) (s : State), (∀ w ∈ frameSlots (s.get .sp), w.toNat + 1 < s.mem.size) →
      ∃ t, exec (.calLit address) s = .next t ∧ Called address s t) ∧
    ∀ (address : Word) (s t : State), (∃ w ∈ frameSlots (s.get .sp), s.mem.size ≤ w.toNat + 1) →
      exec (.calLit address) s ≠ .next t

/-- R177 with R175: CAL_REG, its encoding, the frame it builds and the jump to the register's value from before the call:
the spec's decision D9 (log entry 8), which shows for `sp` and `fp`. -/
def Obligations.CalRegBuildsTheFrameAndJumps : Prop :=
  (∀ a : Byte, StepsAs [0x5F#8, a] (.calReg (regOfByte a))) ∧
    (∀ (src : Reg) (s : State), (∀ w ∈ frameSlots (s.get .sp), w.toNat + 1 < s.mem.size) →
      ∃ t, exec (.calReg src) s = .next t ∧ Called (s.get src) s t) ∧
    ∀ (src : Reg) (s t : State), (∃ w ∈ frameSlots (s.get .sp), s.mem.size ≤ w.toNat + 1) →
      exec (.calReg src) s ≠ .next t

/-- R179 with R178: RET, its encoding and its effect, on every state. -/
def Obligations.RetUnwindsTheFrameAtFp : Prop :=
  StepsAs [0x60#8] .ret ∧
    ∀ s : State, ∃ t, exec .ret s = .next t ∧
      t.get .ip = s.mem.read16 (s.get .fp + 4#16).toNat ∧ t.get .r8 = s.mem.read16 (s.get .fp + 6#16).toNat ∧
      t.get .r7 = s.mem.read16 (s.get .fp + 8#16).toNat ∧ t.get .r6 = s.mem.read16 (s.get .fp + 10#16).toNat ∧
      t.get .r5 = s.mem.read16 (s.get .fp + 12#16).toNat ∧ t.get .r4 = s.mem.read16 (s.get .fp + 14#16).toNat ∧
      t.get .r3 = s.mem.read16 (s.get .fp + 16#16).toNat ∧ t.get .r2 = s.mem.read16 (s.get .fp + 18#16).toNat ∧
      t.get .r1 = s.mem.read16 (s.get .fp + 20#16).toNat ∧
      t.get .sp = s.get .fp + 22#16 + 2#16 * s.mem.read16 (s.get .fp + 22#16).toNat ∧
      t.get .fp = s.get .fp + s.mem.read16 (s.get .fp + 2#16).toNat ∧
      t.sfs = s.sfs - 22#16 - 2#16 * s.mem.read16 (s.get .fp + 22#16).toNat ∧
      t.get .acc = s.get .acc ∧ SameMemory s t

/-- R179, corner case (a): RET with no frame, on a freshly reset memory smaller than 65536 bytes. That `sfs` starts at 0 is
the spec's decision D3 (log entry 2). -/
def Obligations.RetWithoutAFrameReadsZeros : Prop :=
  ∀ size : Nat, 2 ≤ size → size < 65536 → ∃ t, exec .ret (State.resetOfSize size) = .next t ∧
    t.get .ip = 0#16 ∧ (∀ r ∈ [Reg.r1, .r2, .r3, .r4, .r5, .r6, .r7, .r8], t.get r = 0#16) ∧
    t.get .sp = BitVec.ofNat 16 (size + 20) ∧ t.get .fp = BitVec.ofNat 16 (size - 2) ∧ t.sfs = 0xFFEA#16

/-- R182, R183: a matched call and return. A call is made in `s`; the subroutine reaches a RET in some state `u` with `fp`
still the frame's address, its pushes and pops balanced and the eleven words of the frame as the call left them. Then the
return restores `ip` and `r1` to `r8`, removes the frame, the count and the arguments, takes `sfs` back, leaves `acc` and
memory alone, and puts `sp + sfs` of the call into `fp`, which is the caller's `fp` exactly where the two were equal. That `sfs` is
counted on through both and neither sets it is the spec's decision D10 (log entry 9). -/
def Obligations.MatchedReturnRestoresTheCaller : Prop :=
  ∀ (i : Instr) (s t u : State), ((∃ address, i = .calLit address) ∨ ∃ src, i = .calReg src) → exec i s = .next t →
    u.get .fp = t.get .fp → u.sfs = t.sfs →
    (∀ k : Nat, 1 ≤ k → k ≤ 11 → u.mem.read16 (t.get .fp + BitVec.ofNat 16 (2 * k)).toNat =
      t.mem.read16 (t.get .fp + BitVec.ofNat 16 (2 * k)).toNat) →
    ∃ v, exec .ret u = .next v ∧ v.get .ip = s.get .ip ∧
      (∀ r ∈ [Reg.r1, .r2, .r3, .r4, .r5, .r6, .r7, .r8], v.get r = s.get r) ∧
      v.get .sp = s.get .sp + 2#16 + 2#16 * s.mem.read16 (s.get .sp + 2#16).toNat ∧
      v.sfs = s.sfs - 2#16 - 2#16 * s.mem.read16 (s.get .sp + 2#16).toNat ∧
      v.get .fp = s.get .sp + s.sfs ∧ (v.get .fp = s.get .fp ↔ s.get .fp = s.get .sp + s.sfs) ∧
      v.get .acc = u.get .acc ∧ SameMemory u v

/-! ### Unassigned opcodes -/

/-- R89, R200: each of the 244 unassigned opcode bytes is an instruction of one byte; the step changes `ip` to `ip + 1`
and nothing else, whatever bytes follow. -/
def Obligations.UnassignedOpcodesAreOneByteNoOps : Prop :=
  ∀ op : Byte,
    (op ≤ 0x0F#8 ∨ op = 0x16#8 ∨ op = 0x19#8 ∨ (0x1B#8 ≤ op ∧ op ≤ 0x5D#8) ∨ 0x61#8 ≤ op) →
    (∃ i, encode i = [op] ∧ ∀ bs, decode (op :: bs) = .ok (i, bs)) ∧
      ∀ s : State, s.mem.byteAt (s.get .ip).toNat = op → step s = .next (s.set .ip (s.get .ip + 1#16))

/-- R200: the handler of each row of unassigned opcodes answers the state it is given, unchanged. -/
def Obligations.UnassignedHandlersChangeNothing : Prop :=
  ∀ s : State,
    (∀ low, exec (.unassigned00To0F low) s = .next s) ∧ exec .unassigned16 s = .next s ∧
    exec .unassigned19 s = .next s ∧ exec .unassigned1B s = .next s ∧
    (∀ low, exec (.unassigned1CTo1F low) s = .next s) ∧ (∀ low, exec (.unassigned20To3F low) s = .next s) ∧
    (∀ low, exec (.unassigned40To4F low) s = .next s) ∧ (∀ low, exec (.unassigned50To57 low) s = .next s) ∧
    (∀ low, exec (.unassigned58To5B low) s = .next s) ∧ (∀ low, exec (.unassigned5CTo5D low) s = .next s) ∧
    exec .unassigned61 s = .next s ∧ (∀ low, exec (.unassigned62To63 low) s = .next s) ∧
    (∀ low, exec (.unassigned64To67 low) s = .next s) ∧ (∀ low, exec (.unassigned68To6F low) s = .next s) ∧
    (∀ low, exec (.unassigned70To7F low) s = .next s) ∧ (∀ low, exec (.unassigned80ToFF low) s = .next s)

/-! ### The whole machine -/

/-- R119, R217, R250: an instruction completes exactly where all its stores lie inside memory, and otherwise ends in the
fault that names it, its address and its first store that does not; what the fault carries
(the first of several such stores, by the address of its high byte) is the model's choice (log entry 10). There is no other
way to stop. -/
def Obligations.OnlyAStoreOutOfRangeStopsAnInstruction : Prop :=
  ∀ (i : Instr) (s : State),
    match (storeAddresses i s).find? (fun a => !inRange s a) with
    | none => ∃ t, exec i s = .next t
    | some a => exec i s = .fault (.storeOutOfRange i (s.get .ip - BitVec.ofNat 16 i.length) a)

/-- R21, R62: what any instruction leaves alone: every register it does not write and every byte it does not store to. -/
def Obligations.EveryInstructionKeepsWhatItDoesNotWrite : Prop :=
  ∀ (i : Instr) (s t : State), exec i s = .next t →
    SameRegsBut (writtenRegs i) s t ∧ SameMemoryBut (storeAddresses i s) s t

/-- R31, R184: `sfs` changes by 2 for each push, by -2 for each pop, those inside a call and a return included, and by
nothing else. That neither a call nor a return assigns it is the spec's decision D10 (log entry 9). -/
def Obligations.SfsCountsPushesAndPopsOnly : Prop :=
  ∀ (i : Instr) (s t : State), exec i s = .next t → t.sfs = s.sfs + sfsChange i s

/-- R33: `sp + sfs` stays as it is under every instruction but RET and those whose destination operand is `sp`. -/
def Obligations.SpPlusSfsIsKept : Prop :=
  ∀ (i : Instr) (s t : State), exec i s = .next t → i ≠ .ret → destination i ≠ some .sp →
    t.get .sp + t.sfs = s.get .sp + s.sfs

/-- R151: beside the advance by the fetch, `ip` changes only by a taken JMP_NOT_EQ, a call, a return, or an instruction
whose destination operand is `ip`. -/
def Obligations.IpChangesOnlyByControlTransfers : Prop :=
  ∀ (i : Instr) (s t : State), exec i s = .next t → t.get .ip ≠ s.get .ip →
    (∃ value address, i = .jmpNotEq value address ∧ value ≠ s.get .acc ∧ t.get .ip = address) ∨
      (∃ address, i = .calLit address ∧ t.get .ip = address) ∨ (∃ src, i = .calReg src ∧ t.get .ip = s.get src) ∨
      (i = .ret ∧ t.get .ip = s.mem.read16 (s.get .fp + 4#16).toNat) ∨ destination i = some .ip

/-- R27, R253: `acc` changes only by ADD_REG_REG and by an instruction whose destination operand is `acc`: a call and a
return leave it alone. -/
def Obligations.AccChangesOnlyByAddOrAsDestination : Prop :=
  ∀ (i : Instr) (s t : State), exec i s = .next t → t.get .acc ≠ s.get .acc →
    (∃ reg1 reg2, i = .addRegReg reg1 reg2) ∨ destination i = some .acc

/-- The invariant of the memory, which every step keeps: a size in `2..65536`, which no step changes (R7, R35), and the
canonical form, every listed byte inside memory. -/
def Obligations.EveryStepKeepsTheInvariant : Prop :=
  ∀ s t : State, s.Inv → step s = .next t → t.Inv ∧ t.mem.size = s.mem.size

/-- The invariant holds after reset, for every size the spec permits (R7, R37). -/
def Obligations.InvariantHoldsAfterReset : Prop :=
  ∀ size : Nat, 2 ≤ size → size ≤ 65536 → (State.resetOfSize size).Inv

/-- Whatever the host and the program do after reset, in any order, the invariant holds and the memory has the size it was
created with (R35, R242, R244). That the host acts between steps only, and that a reset is a command of the host, are the
spec's decisions D14 and D11 (log entries 21, 17). -/
def Obligations.EveryReachedStateKeepsTheInvariantAndSize : Prop :=
  ∀ (size : Nat) (t : State), 2 ≤ size → size ≤ 65536 → Reaches (State.resetOfSize size) t →
    t.Inv ∧ t.mem.size = size

/-! ### Reset and the host interface -/

/-- R37, R240: creation of a machine. The size is refused outside `2..65536` (U7); that `sfs` is 0 is the spec's decision
D3 (log entry 2). -/
def Obligations.CreationGivesTheResetValues : Prop :=
  (∀ size : Nat, 2 ≤ size → size ≤ 65536 → ∃ t, hostCreate size = .next t ∧
    (∀ r, r ≠ .sp → r ≠ .fp → t.get r = 0#16) ∧ (t.get .sp).toNat = size - 2 ∧ (t.get .fp).toNat = size - 2 ∧
    t.sfs = 0#16 ∧ t.mem.size = size ∧ ∀ a, t.mem.byteAt a = 0#8) ∧
  ∀ size : Nat, size < 2 ∨ 65536 < size → hostCreate size = .refused (.memSizeNotPermitted size)

/-- R241: a reset gives the reset state of the size the machine has, whatever went before; nothing else survives. That
reset is a command of the host, which it may give again with the same result, is the spec's decision D11 (log entry 17). -/
def Obligations.ResetKeepsOnlyTheMemorySize : Prop :=
  ∀ s : State, ∃ t, hostApply .reset s = .next t ∧ t = State.resetOfSize s.mem.size ∧
    ∀ u : State, u.mem.size = s.mem.size → hostApply .reset u = .next t

/-- R24, R242: a register written by the host reads as written, and nothing else changes, `sfs` included. -/
def Obligations.HostRegisterWriteIsReadBack : Prop :=
  ∀ (r : Reg) (v : Word) (s : State), ∃ t, hostApply (.setReg r v) s = .next t ∧ hostGetReg r t = v ∧
    SameRegsBut [r] s t ∧ t.sfs = s.sfs ∧ SameMemory s t

/-- R22, U5: the twelve names reach their registers, and any other name is refused. -/
def Obligations.HostNamesReachTheTwelveRegisters : Prop :=
  (∀ (r : Reg) (v : Word) (s : State), hostGetNamed (nameOfReg r) s = some (s.get r) ∧
    hostSetNamed (nameOfReg r) v s = .next (hostSetReg r v s)) ∧
  ∀ (name : String) (v : Word) (s : State), (∀ r, name ≠ nameOfReg r) →
    hostGetNamed name s = none ∧ hostSetNamed name v s = .refused (.unknownRegisterName name)

/-- R55, R56: the host's `set` and `set16` inside memory write their bytes, high byte first, and nothing else. -/
def Obligations.HostMemoryWriteChangesItsBytesOnly : Prop :=
  (∀ (a : Nat) (b : Byte) (s : State), a < s.mem.size → ∃ t, hostSet8 a b s = .next t ∧
    t.mem.byteAt a = b ∧ (∀ c, c ≠ a → t.mem.byteAt c = s.mem.byteAt c) ∧ t.mem.size = s.mem.size ∧
    SameRegsBut [] s t ∧ t.sfs = s.sfs) ∧
  ∀ (a : Nat) (v : Word) (s : State), a + 1 < s.mem.size → ∃ t, hostSet16 a v s = .next t ∧
    t.mem.byteAt a = highByte v ∧ t.mem.byteAt (a + 1) = lowByte v ∧
    (∀ c, c ≠ a → c ≠ a + 1 → t.mem.byteAt c = s.mem.byteAt c) ∧ t.mem.size = s.mem.size ∧
    SameRegsBut [] s t ∧ t.sfs = s.sfs

/-- R57, R58, U2: a host write that does not lie wholly inside memory is refused. -/
def Obligations.HostWriteOutsideMemoryIsRefused : Prop :=
  ∀ (a : Nat) (b : Byte) (v : Word) (bs : List Byte) (s : State),
    (s.mem.size ≤ a → hostSet8 a b s = .refused (.hostStoreOutOfRange a 1)) ∧
    (s.mem.size ≤ a + 1 → hostSet16 a v s = .refused (.hostStoreOutOfRange a 2)) ∧
    (s.mem.size < a + bs.length → hostSetBlock a bs s = .refused (.hostStoreOutOfRange a bs.length))

/-- R53: a 16-bit read is the big-endian number of its two bytes, each in or out of range on its own. -/
def Obligations.WordReadIsBigEndian : Prop :=
  ∀ (a : Nat) (s : State),
    (hostGet16 a s).toNat = (hostGet8 a s).toNat * 256 + (hostGet8 (a + 1) s).toNat ∧
    (a + 1 = s.mem.size → (hostGet16 a s).toNat = (hostGet8 a s).toNat * 256)

/-- R51, R52: a read outside memory gives 0 and never fails. -/
def Obligations.ReadOutsideMemoryGivesZero : Prop :=
  ∀ (a : Nat) (s : State), s.mem.size ≤ a → hostGet8 a s = 0#8 ∧ hostGet16 a s = 0#16

/-- R71: a block that lies inside memory is written byte for byte and is what `show` then reads, nothing else having
changed; a block that does not has no successor state; `show` reads any window, with 0 outside memory. -/
def Obligations.BlockLoadIsWhatShowReads : Prop :=
  (∀ (a : Nat) (bs : List Byte) (s : State), a + bs.length ≤ s.mem.size → ∃ t, hostSetBlock a bs s = .next t ∧
    hostShow a bs.length t = bs ∧ (∀ c, c < a ∨ a + bs.length ≤ c → t.mem.byteAt c = s.mem.byteAt c) ∧
    t.mem.size = s.mem.size ∧ SameRegsBut [] s t ∧ t.sfs = s.sfs) ∧
  (∀ (a : Nat) (bs : List Byte) (s t : State), s.mem.size < a + bs.length → hostSetBlock a bs s ≠ .next t) ∧
  ∀ (a len k : Nat) (s : State), k < len → (hostShow a len s)[k]? = some (s.mem.byteAt (a + k))

/-- Every command of the host, from every state, keeps the invariant and the memory's size: the step trigger and `execute`
of an opcode byte, the writes of registers and memory, and the reset (R35, R242). That a reset is such a command is the
spec's decision D11 (log entry 17); that a write outside memory is refused and so answers no next state is U2 (log entry
15). -/
def Obligations.EveryHostCommandKeepsTheInvariant : Prop :=
  ∀ (c : HostCommand) (s t : State), s.Inv → hostApply c s = .next t → t.Inv ∧ t.mem.size = s.mem.size
end

