-- ==== Sys2Proof/Laws/Memory.lean ====
section
/-! SUPPORT. What the memory's primitives do: a byte read after a write, the size, and the canonical form, which every one
of them keeps. -/

namespace Sys2Proof.Machine

/-! ### The list of cells -/

theorem cellAt_eraseCell (cells : List Host.Cell) (a c : Nat) :
    cellAt (eraseCell cells a) c = if c = a then 0#8 else cellAt cells c := by
  induction cells with
  | nil => simp [eraseCell, cellAt]
  | cons p rest ih =>
    obtain ⟨k, b⟩ := p
    by_cases hk : k = a
    · subst hk
      simp only [eraseCell, if_true, ih, cellAt]
      by_cases hc : c = k
      · simp [hc]
      · simp [hc, Ne.symm hc]
    · simp only [eraseCell, hk, if_false, cellAt]
      by_cases hc : k = c
      · subst hc; simp [hk]
      · simp [hc, ih]

theorem cellAt_insertCell (cells : List Host.Cell) (a c : Nat) (b : Byte) :
    cellAt (insertCell cells a b) c = if c = a then b else cellAt cells c := by
  induction cells with
  | nil => simp [insertCell, cellAt, eq_comm]
  | cons p rest ih =>
    obtain ⟨k, d⟩ := p
    simp only [insertCell]
    split
    · simp only [cellAt]
      by_cases hc : c = a
      · simp [hc]
      · simp [hc, Ne.symm hc]
    · split
      · rename_i hak
        subst hak
        simp only [cellAt]
        by_cases hc : c = a
        · simp [hc]
        · simp [hc, Ne.symm hc]
      · rename_i hlt hne
        simp only [cellAt, ih]
        by_cases hc : k = c
        · subst hc; simp [Ne.symm hne]
        · simp [hc]

/-- A cell read after a write gives the byte written, and every other cell its own byte; of any list of cells. -/
theorem cellAt_putCell (cells : List Host.Cell) (a c : Nat) (b : Byte) :
    cellAt (putCell cells a b) c = if c = a then b else cellAt cells c := by
  unfold putCell
  split
  · rename_i h; subst h; exact cellAt_eraseCell cells a c
  · exact cellAt_insertCell cells a c b

theorem cellsOk_weaken {lo lo' hi : Nat} (h : lo' ≤ lo) {cells : List Host.Cell} (ok : cellsOk lo hi cells = true) :
    cellsOk lo' hi cells = true := by
  cases cells with
  | nil => rfl
  | cons p rest =>
    obtain ⟨k, b⟩ := p
    simp only [cellsOk, Bool.and_eq_true, decide_eq_true_eq] at ok ⊢
    exact ⟨⟨⟨by omega, ok.1.1.2⟩, ok.1.2⟩, ok.2⟩

theorem cellsOk_eraseCell {lo hi : Nat} (cells : List Host.Cell) (a : Nat) (ok : cellsOk lo hi cells = true) :
    cellsOk lo hi (eraseCell cells a) = true := by
  induction cells generalizing lo with
  | nil => rfl
  | cons p rest ih =>
    obtain ⟨k, b⟩ := p
    simp only [cellsOk, Bool.and_eq_true, decide_eq_true_eq] at ok
    simp only [eraseCell]
    split
    · exact cellsOk_weaken (by omega) (ih ok.2)
    · simp only [cellsOk, Bool.and_eq_true, decide_eq_true_eq]
      exact ⟨ok.1, ih ok.2⟩

theorem cellsOk_insertCell {lo hi : Nat} (cells : List Host.Cell) {a : Nat} {b : Byte} (hlo : lo ≤ a) (hhi : a < hi)
    (hb : b ≠ 0#8) (ok : cellsOk lo hi cells = true) : cellsOk lo hi (insertCell cells a b) = true := by
  induction cells generalizing lo with
  | nil => simp [insertCell, cellsOk, hlo, hhi, hb]
  | cons p rest ih =>
    obtain ⟨k, c⟩ := p
    simp only [cellsOk, Bool.and_eq_true, decide_eq_true_eq] at ok
    simp only [insertCell]
    split
    · rename_i hlt
      simp only [cellsOk, Bool.and_eq_true, decide_eq_true_eq]
      exact ⟨⟨⟨hlo, hhi⟩, hb⟩, ⟨⟨by omega, ok.1.1.2⟩, ok.1.2⟩, ok.2⟩
    · split
      · rename_i hak
        subst hak
        simp only [cellsOk, Bool.and_eq_true, decide_eq_true_eq]
        exact ⟨⟨⟨hlo, hhi⟩, hb⟩, ok.2⟩
      · simp only [cellsOk, Bool.and_eq_true, decide_eq_true_eq]
        exact ⟨ok.1, ih (by omega) ok.2⟩

theorem cellsOk_putCell {hi : Nat} (cells : List Host.Cell) {a : Nat} (b : Byte) (hhi : a < hi)
    (ok : cellsOk 0 hi cells = true) : cellsOk 0 hi (putCell cells a b) = true := by
  unfold putCell
  split
  · exact cellsOk_eraseCell cells a ok
  · rename_i hb; exact cellsOk_insertCell cells (Nat.zero_le a) hhi hb ok

/-! ### One byte -/

@[simp] theorem Memory.put_size (m : Memory) (a : Nat) (b : Byte) : (m.put a b).size = m.size := rfl

/-- A byte read after `mem[a] <- b`. -/
theorem Memory.byteAt_put (m : Memory) (a c : Nat) (b : Byte) :
    (m.put a b).byteAt c = if c = a ∧ a < m.size then b else m.byteAt c := by
  simp only [Memory.byteAt, Memory.put, cellAt_putCell]
  by_cases hc : c = a
  · subst hc; by_cases h : c < m.size <;> simp [h]
  · simp [hc]

theorem Memory.byteAt_of_size_le (m : Memory) {a : Nat} (h : m.size ≤ a) : m.byteAt a = 0#8 := by
  simp [Memory.byteAt, Nat.not_lt.mpr h]

theorem Memory.wf_put {m : Memory} (h : m.wf = true) {a : Nat} (ha : a < m.size) (b : Byte) : (m.put a b).wf = true := by
  simp only [Memory.wf, Bool.and_eq_true, Memory.put] at *
  exact ⟨h.1, cellsOk_putCell m.cells b ha h.2⟩

/-! ### The bytes of a word -/

theorem getLsbD_wordOfBytes (h l : Byte) (i : Nat) :
    (wordOfBytes h l).getLsbD i = if i < 8 then l.getLsbD i else h.getLsbD (i - 8) :=
  BitVec.getLsbD_append

@[simp] theorem highByte_wordOfBytes (h l : Byte) : highByte (wordOfBytes h l) = h := by
  apply BitVec.eq_of_getLsbD_eq
  intro i hi
  simp [highByte, getLsbD_wordOfBytes, hi]

@[simp] theorem lowByte_wordOfBytes (h l : Byte) : lowByte (wordOfBytes h l) = l := by
  apply BitVec.eq_of_getLsbD_eq
  intro i hi
  simp [lowByte, getLsbD_wordOfBytes, hi]

@[simp] theorem wordOfBytes_high_low (w : Word) : wordOfBytes (highByte w) (lowByte w) = w := by
  apply BitVec.eq_of_getLsbD_eq
  intro i hi
  rw [getLsbD_wordOfBytes]
  by_cases h : i < 8
  · simp [h, lowByte]
  · have h8 : i - 8 < 8 := by omega
    have h9 : 8 + (i - 8) = i := by omega
    simp [h, highByte, h8, h9]

/-! ### The two widths of write -/

/-- All that an 8-bit write can do. -/
theorem Memory.write8_eq_some {m n : Memory} {a : Nat} {b : Byte} (h : m.write8 a b = some n) :
    a < m.size ∧ n.size = m.size ∧ (∀ c, n.byteAt c = if c = a then b else m.byteAt c) ∧
      (m.wf = true → n.wf = true) := by
  unfold Memory.write8 at h
  split at h
  · rename_i ha
    cases h
    exact ⟨ha, rfl, fun c => by simp [Memory.byteAt_put, ha], fun w => Memory.wf_put w ha b⟩
  · cases h

theorem Memory.write16_eq_none_iff {m : Memory} {a : Nat} {v : Word} : m.write16 a v = none ↔ m.size ≤ a + 1 := by
  unfold Memory.write16; split <;> simp_all

theorem Memory.write16_of_lt {m : Memory} {a : Nat} (v : Word) (h : a + 1 < m.size) :
    m.write16 a v = some ((m.put a (highByte v)).put (a + 1) (lowByte v)) := by simp [Memory.write16, h]

/-- All that a 16-bit write can do. -/
theorem Memory.write16_eq_some {m n : Memory} {a : Nat} {v : Word} (h : m.write16 a v = some n) :
    a + 1 < m.size ∧ n.size = m.size ∧
      (∀ c, n.byteAt c = if c = a then highByte v else if c = a + 1 then lowByte v else m.byteAt c) ∧
      (m.wf = true → n.wf = true) := by
  unfold Memory.write16 at h
  split at h
  · rename_i ha
    cases h
    have ha' : a < m.size := by omega
    refine ⟨ha, rfl, fun c => ?_, fun w => Memory.wf_put (Memory.wf_put w ha' _) ha _⟩
    rw [Memory.byteAt_put, Memory.byteAt_put]
    by_cases h1 : c = a
    · have : ¬ (c = a + 1) := by omega
      simp [h1, ha']
    · by_cases h2 : c = a + 1 <;> simp [h1, h2, ha]
  · cases h

theorem Memory.read16_congr {m n : Memory} {a : Nat} (h0 : n.byteAt a = m.byteAt a)
    (h1 : n.byteAt (a + 1) = m.byteAt (a + 1)) : n.read16 a = m.read16 a := by
  simp [Memory.read16, h0, h1]

/-! ### Blocks -/

@[simp] theorem Memory.putBytes_size (m : Memory) (a : Nat) (bs : List Byte) : (m.putBytes a bs).size = m.size := by
  induction bs generalizing m a with
  | nil => rfl
  | cons b bs ih => simp [Memory.putBytes, ih]

theorem Memory.wf_putBytes {m : Memory} {a : Nat} {bs : List Byte} (h : m.wf = true) (hb : a + bs.length ≤ m.size) :
    (m.putBytes a bs).wf = true := by
  induction bs generalizing m a with
  | nil => exact h
  | cons b bs ih =>
    simp only [List.length_cons] at hb
    exact ih (Memory.wf_put h (by omega) b) (by rw [Memory.put_size]; omega)

theorem Memory.setBlock_eq_some {m n : Memory} {a : Nat} {bs : List Byte} (h : m.setBlock a bs = some n) :
    a + bs.length ≤ m.size ∧ n = m.putBytes a bs := by
  unfold Memory.setBlock at h
  split at h
  · rename_i hb
    cases h
    exact ⟨by simpa [blockFits] using hb, rfl⟩
  · cases h

theorem Memory.wf_setBlock {m n : Memory} {a : Nat} {bs : List Byte} (h : m.setBlock a bs = some n)
    (hm : m.wf = true) : n.wf = true := by
  obtain ⟨h1, rfl⟩ := Memory.setBlock_eq_some h
  exact Memory.wf_putBytes hm h1

theorem State.reset_mem_wf : State.reset.mem.wf = true := by decide

@[simp] theorem Memory.window_length (m : Memory) (a n : Nat) : (m.window a n).length = n := by
  induction n generalizing a with
  | zero => rfl
  | succ n ih => simp [Memory.window, ih]

end Sys2Proof.Machine
end

