-- ==== Sys2Proof/Laws/Decode.lean ====
section
/-! SUPPORT. The small lemmas of the encoding: registers and their bytes, and the opcode byte of an encoding. -/

namespace Sys2Proof

/-- The canonical byte of a register selects it (spec/30_encoding.md rule R86). -/
@[simp] theorem regOfByte_byte (r : Reg) : regOfByte r.byte = r := by cases r <;> rfl

theorem Reg.number_lt (r : Reg) : r.number < 12 := by cases r <;> decide

theorem Reg.number_injective {r q : Reg} (h : r.number = q.number) : r = q := by
  cases r <;> cases q <;> first | rfl | simp [Reg.number] at h

@[simp] theorem regOfNumber_number (r : Reg) : regOfNumber r.number = r := by cases r <;> rfl

/-- A list that begins with an opcode byte decodes as what follows that byte allows. -/
theorem decode_cons (op : Byte) (bs : List Byte) :
    decode (op :: bs) = match decodeAfter op bs with
      | some r => .ok r
      | none => .error (.truncated op) := rfl

theorem decode_eq_ok_iff {op : Byte} {bs rest : List Byte} {i : Instr} :
    decode (op :: bs) = .ok (i, rest) ↔ decodeAfter op bs = some (i, rest) := by
  rw [decode_cons]
  cases decodeAfter op bs <;> simp

/-- An opcode byte that is none of the twelve takes no operand byte (spec/30_encoding.md rule R89). -/
theorem decodeAfter_of_not_assigned {op : Byte} (h : isAssigned op = false) (bs : List Byte) :
    decodeAfter op bs = some (decodeUnassigned op, bs) := by
  simp only [isAssigned, List.mem_cons, List.not_mem_nil, or_false, decide_eq_false_iff_not, not_or] at h
  simp [decodeAfter, h]

theorem if_both {α : Type} {P : α → Prop} {c : Prop} [Decidable c] {a b : α} (ha : P a) (hb : P b) :
    P (if c then a else b) := by
  split
  · exact ha
  · exact hb

/-- What holds of the sixteen rows of unassigned opcodes holds of what an unassigned opcode byte decodes to. -/
theorem decodeUnassigned_cases {P : Instr → Prop} (h0 : ∀ low, P (.unassigned00To0F low)) (h1 : P .unassigned16)
    (h2 : P .unassigned19) (h3 : P .unassigned1B) (h4 : ∀ low, P (.unassigned1CTo1F low))
    (h5 : ∀ low, P (.unassigned20To3F low)) (h6 : ∀ low, P (.unassigned40To4F low))
    (h7 : ∀ low, P (.unassigned50To57 low)) (h8 : ∀ low, P (.unassigned58To5B low))
    (h9 : ∀ low, P (.unassigned5CTo5D low)) (h10 : P .unassigned61) (h11 : ∀ low, P (.unassigned62To63 low))
    (h12 : ∀ low, P (.unassigned64To67 low)) (h13 : ∀ low, P (.unassigned68To6F low))
    (h14 : ∀ low, P (.unassigned70To7F low)) (h15 : ∀ low, P (.unassigned80ToFF low)) (op : Byte) :
    P (decodeUnassigned op) := by
  unfold decodeUnassigned
  exact if_both (h0 _) (if_both h1 (if_both h2 (if_both h3 (if_both (h4 _) (if_both (h5 _) (if_both (h6 _)
    (if_both (h7 _) (if_both (h8 _) (if_both (h9 _) (if_both h10 (if_both (h11 _) (if_both (h12 _)
    (if_both (h13 _) (if_both (h14 _) (h15 _)))))))))))))))

theorem Instr.length_pos (i : Instr) : 0 < i.length := by cases i <;> simp [Instr.length]

theorem Instr.length_le (i : Instr) : i.length ≤ 5 := by cases i <;> simp [Instr.length]

theorem lengthOfOpcode_pos (op : Byte) : 0 < lengthOfOpcode op := by unfold lengthOfOpcode; omega

end Sys2Proof
end

