-- ==== Sys2Proof/Laws/State.lean ====
section
/-! SUPPORT. The small lemmas of the state's reads and updates: what each read gives after each update. No later proof needs
to unfold a record update. -/

namespace Sys2Proof.Machine

/-! ### Reads after a register write -/

@[simp] theorem State.set_mem (s : State) (r : Reg) (v : Word) : (s.set r v).mem = s.mem := by cases r <;> rfl

@[simp] theorem State.set_sfs (s : State) (r : Reg) (v : Word) : (s.set r v).sfs = s.sfs := by cases r <;> rfl

@[simp] theorem State.get_set_self (s : State) (r : Reg) (v : Word) : (s.set r v).get r = v := by cases r <;> rfl

theorem State.get_set_of_ne (s : State) (v : Word) {r q : Reg} (h : q ≠ r) : (s.set r v).get q = s.get q := by
  cases r <;> cases q <;> first | rfl | exact absurd rfl h

/-- The register file's law: a read gives the value written to that register, and any other register's own. -/
theorem State.get_set (s : State) (r q : Reg) (v : Word) :
    (s.set r v).get q = if q = r then v else s.get q := by
  by_cases h : q = r
  · subst h; simp
  · simp [h, State.get_set_of_ne]

@[simp] theorem State.set_get_self (s : State) (r : Reg) : s.set r (s.get r) = s := by cases r <;> rfl

@[simp] theorem State.set_set_self (s : State) (r : Reg) (v w : Word) : (s.set r v).set r w = s.set r w := by
  cases r <;> rfl

/-! ### Reads after a write of `sfs` or of the memory -/

@[simp] theorem State.setSfs_sfs (s : State) (v : Word) : (s.setSfs v).sfs = v := rfl
@[simp] theorem State.setSfs_mem (s : State) (v : Word) : (s.setSfs v).mem = s.mem := rfl
@[simp] theorem State.setSfs_regs (s : State) (v : Word) : (s.setSfs v).regs = s.regs := rfl
@[simp] theorem State.setMem_mem (s : State) (m : Memory) : (s.setMem m).mem = m := rfl
@[simp] theorem State.setMem_sfs (s : State) (m : Memory) : (s.setMem m).sfs = s.sfs := rfl
@[simp] theorem State.setMem_regs (s : State) (m : Memory) : (s.setMem m).regs = s.regs := rfl
@[simp] theorem State.get_setSfs (s : State) (v : Word) (r : Reg) : (s.setSfs v).get r = s.get r := by cases r <;> rfl
@[simp] theorem State.get_setMem (s : State) (m : Memory) (r : Reg) : (s.setMem m).get r = s.get r := by cases r <;> rfl
@[simp] theorem State.setMem_self (s : State) : s.setMem s.mem = s := rfl
@[simp] theorem State.setSfs_self (s : State) : s.setSfs s.sfs = s := rfl
@[simp] theorem State.setSfs_setSfs (s : State) (v w : Word) : (s.setSfs v).setSfs w = s.setSfs w := rfl
@[simp] theorem State.setMem_setMem (s : State) (m n : Memory) : (s.setMem m).setMem n = s.setMem n := rfl

/-! ### Updates of different parts commute -/

theorem State.set_comm (s : State) {r q : Reg} (h : r ≠ q) (v w : Word) :
    (s.set r v).set q w = (s.set q w).set r v := by
  cases r <;> cases q <;> first | rfl | exact absurd rfl h

theorem State.setSfs_set (s : State) (r : Reg) (v w : Word) : (s.setSfs w).set r v = (s.set r v).setSfs w := by
  cases r <;> rfl

theorem State.setMem_set (s : State) (r : Reg) (v : Word) (m : Memory) :
    (s.setMem m).set r v = (s.set r v).setMem m := by
  cases r <;> rfl

theorem State.setMem_setSfs (s : State) (w : Word) (m : Memory) : (s.setMem m).setSfs w = (s.setSfs w).setMem m := rfl

/-- Two states that read alike in every register, in `sfs` and in memory are the same state: there is no other state
(spec/10_state.md rule R20). -/
theorem State.ext_reads {s t : State} (hr : ∀ r, s.get r = t.get r) (hf : s.sfs = t.sfs) (hm : s.mem = t.mem) :
    s = t := by
  obtain ⟨⟨a0, a1, a2, a3, a4, a5, a6, a7, a8, a9, a10, a11⟩, m, f⟩ := s
  obtain ⟨⟨b0, b1, b2, b3, b4, b5, b6, b7, b8, b9, b10, b11⟩, n, g⟩ := t
  have h0 := hr .ip
  have h1 := hr .acc
  have h2 := hr .r1
  have h3 := hr .r2
  have h4 := hr .r3
  have h5 := hr .r4
  have h6 := hr .r5
  have h7 := hr .r6
  have h8 := hr .r7
  have h9 := hr .r8
  have h10 := hr .sp
  have h11 := hr .fp
  simp only [State.get] at *
  subst_vars
  rfl

end Sys2Proof.Machine
end

