-- ==== Sys2Proof/Laws/Fetch.lean ====
section
/-! SUPPORT. What the fetch unit does: every fetch leaves the state as it is but for `ip`, which it moves on by as many
bytes as it reads (spec/40_fetch_decode_step.md rule R113). -/

namespace Sys2Proof.Machine

@[simp] theorem fetch8_value (s : State) : (fetch8 s).1 = s.mem.byteAt (s.get .ip).toNat := rfl

@[simp] theorem fetch8_state (s : State) : (fetch8 s).2 = s.set .ip (s.get .ip + 1#16) := rfl

@[simp] theorem fetch16_value (s : State) : (fetch16 s).1 = s.mem.read16 (s.get .ip).toNat := rfl

@[simp] theorem fetch16_state (s : State) : (fetch16 s).2 = s.set .ip (s.get .ip + 2#16) := rfl

theorem fetchOperand_state (k : OperandKind) (s : State) :
    (fetchOperand k s).2 = s.set .ip (s.get .ip + BitVec.ofNat 16 k.bytes) := by cases k <;> rfl

theorem fetchOperand_length (k : OperandKind) (s : State) : (fetchOperand k s).1.length = k.bytes := by cases k <;> rfl

/-- The fetch of a list of operands moves `ip` past them and changes nothing else. -/
theorem fetchOperands_state (ks : List OperandKind) (s : State) :
    (fetchOperands ks s).2 = s.set .ip (s.get .ip + BitVec.ofNat 16 (ks.map OperandKind.bytes).sum) := by
  induction ks generalizing s with
  | nil => simp [fetchOperands]
  | cons k ks ih =>
    rw [fetchOperands, ih, fetchOperand_state, State.get_set_self, State.set_set_self, List.map_cons, List.sum_cons,
      BitVec.ofNat_add, BitVec.add_assoc]

theorem fetchOperands_length (ks : List OperandKind) (s : State) :
    (fetchOperands ks s).1.length = (ks.map OperandKind.bytes).sum := by
  induction ks generalizing s with
  | nil => rfl
  | cons k ks ih => rw [fetchOperands, List.length_append, fetchOperand_length, ih, List.map_cons, List.sum_cons]

/-- The fetch of a whole instruction moves `ip` past it and changes nothing else. -/
theorem fetchInstr_state (s : State) :
    (fetchInstr s).2 = s.set .ip (s.get .ip + BitVec.ofNat 16 (lengthOfOpcode (fetch8 s).1)) := by
  rw [fetchInstr, fetchOperands_state, fetch8_state, State.get_set_self, State.set_set_self, lengthOfOpcode,
    BitVec.ofNat_add, BitVec.add_assoc]

theorem fetchInstr_length (s : State) : (fetchInstr s).1.length = lengthOfOpcode (fetch8 s).1 := by
  rw [fetchInstr, List.length_cons, fetchOperands_length, lengthOfOpcode, Nat.add_comm]

end Sys2Proof.Machine
end

