-- ==== Sys2Proof/Laws/Ops.lean ====
section
/-! SUPPORT. What each shared operation does, said once: the stores, the stack primitives, and the entry and exit of a call. -/

namespace Sys2Proof.Machine

/-! ### One store -/

/-- All that a store can do when it answers a state. -/
theorem store16_eq_ok {a v : Word} {s t : State} (h : store16 a v s = .ok t) :
    a.toNat + 1 < s.mem.size ∧ (∀ r, t.get r = s.get r) ∧ t.sfs = s.sfs ∧ t.mem.size = s.mem.size ∧
      (∀ c, t.mem.byteAt c =
        if c = a.toNat then highByte v else if c = a.toNat + 1 then lowByte v else s.mem.byteAt c) ∧
      (s.mem.wf = true → t.mem.wf = true) := by
  unfold store16 at h
  split at h
  · rename_i m hm
    cases h
    obtain ⟨h1, h2, h3, h4⟩ := Memory.write16_eq_some hm
    exact ⟨h1, fun r => State.get_setMem s m r, rfl, h2, h3, h4⟩
  · cases h

/-- A store has no successor state exactly where a byte of it is out of range, and names its own address. -/
theorem store16_eq_error_iff {a v b : Word} {s : State} :
    store16 a v s = .error b ↔ s.mem.size ≤ a.toNat + 1 ∧ b = a := by
  unfold store16
  split
  · rename_i m hm
    have := (Memory.write16_eq_some hm).1
    simp only [reduceCtorEq, false_iff, not_and]
    omega
  · rename_i hm
    have := Memory.write16_eq_none_iff.mp hm
    simp [this, eq_comm]

/-! ### Push and pop -/

/-- All that `Push` can do when it answers a state. -/
theorem push_eq_ok {v : Word} {s t : State} (h : push v s = .ok t) :
    (s.get .sp).toNat + 1 < s.mem.size ∧ t.get .sp = s.get .sp - 2#16 ∧ (∀ r, r ≠ .sp → t.get r = s.get r) ∧
      t.sfs = s.sfs + 2#16 ∧ t.mem.size = s.mem.size ∧
      (∀ c, t.mem.byteAt c = if c = (s.get .sp).toNat then highByte v
        else if c = (s.get .sp).toNat + 1 then lowByte v else s.mem.byteAt c) ∧
      (s.mem.wf = true → t.mem.wf = true) := by
  unfold push at h
  split at h
  · rename_i u hu
    cases h
    obtain ⟨h1, h2, h3, h4, h5, h6⟩ := store16_eq_ok hu
    refine ⟨h1, by simp [h2], fun r hr => ?_, by simp [h3], by simpa using h4, by simpa using h5, by simpa using h6⟩
    simp [State.get_set_of_ne _ _ hr, h2]
  · cases h

/-- `Push` has no successor state exactly where its store is out of range. -/
theorem push_eq_error_iff {v b : Word} {s : State} :
    push v s = .error b ↔ s.mem.size ≤ (s.get .sp).toNat + 1 ∧ b = s.get .sp := by
  unfold push
  split
  · rename_i t ht
    have := (store16_eq_ok ht).1
    simp only [reduceCtorEq, false_iff, not_and]
    omega
  · rename_i a ha
    rw [← store16_eq_error_iff (v := v), ha]

/-- `Push` answers a state wherever its store is in range. -/
theorem push_of_lt (v : Word) {s : State} (h : (s.get .sp).toNat + 1 < s.mem.size) : ∃ t, push v s = .ok t := by
  cases hp : push v s with
  | ok t => exact ⟨t, rfl⟩
  | error b => have := (push_eq_error_iff.mp hp).1; omega

@[simp] theorem pop_value (s : State) : (pop s).1 = s.mem.read16 (s.get .sp + 2#16).toNat := by
  simp [pop, State.load16]

@[simp] theorem pop_state (s : State) : (pop s).2 = (s.set .sp (s.get .sp + 2#16)).setSfs (s.sfs - 2#16) := rfl

@[simp] theorem popN_mem (n : Word) (s : State) : (popN n s).mem = s.mem := by simp [popN]

@[simp] theorem popN_sfs (n : Word) (s : State) : (popN n s).sfs = s.sfs - 2#16 * n := rfl

@[simp] theorem popN_sp (n : Word) (s : State) : (popN n s).get .sp = s.get .sp + 2#16 * n := by simp [popN]

theorem popN_get_of_ne (n : Word) (s : State) {r : Reg} (h : r ≠ .sp) : (popN n s).get r = s.get r := by
  simp [popN, State.get_set_of_ne _ _ h]

@[simp] theorem popInto_mem (r : Reg) (s : State) : (popInto r s).mem = s.mem := by simp [popInto]

@[simp] theorem popInto_sfs (r : Reg) (s : State) : (popInto r s).sfs = s.sfs - 2#16 := by simp [popInto]

theorem popInto_get (r q : Reg) (s : State) :
    (popInto r s).get q = if q = r then s.mem.read16 (s.get .sp + 2#16).toNat
      else if q = .sp then s.get .sp + 2#16 else s.get q := by
  simp only [popInto, State.get_set, pop_value, pop_state, State.get_setSfs]

/-! ### Pushes and pops of lists of registers -/

/-- The address of the word that the push after `k` others writes, for the stack pointer before all of them. -/
def slot (sp : Word) (k : Nat) : Word := sp - BitVec.ofNat 16 (2 * k)

theorem slot_zero (sp : Word) : slot sp 0 = sp := by simp [slot]

theorem ofNat_two_mul_succ (k : Nat) : BitVec.ofNat 16 (2 * (k + 1)) = 2#16 + BitVec.ofNat 16 (2 * k) := by
  rw [Nat.mul_add, BitVec.ofNat_add, BitVec.add_comm]

theorem slot_succ (sp : Word) (k : Nat) : slot (sp - 2#16) k = slot sp (k + 1) := by
  rw [slot, slot, BitVec.sub_sub, ofNat_two_mul_succ]

theorem slot_toNat (sp : Word) {k : Nat} (hk : k < 32768) :
    (slot sp k).toNat = if 2 * k ≤ sp.toNat then sp.toNat - 2 * k else sp.toNat + 65536 - 2 * k := by
  have := sp.isLt
  rw [slot, BitVec.toNat_sub, BitVec.toNat_ofNat, Nat.mod_eq_of_lt (show 2 * k < 2 ^ 16 by omega)]
  split <;> omega

/-- Words pushed at different depths share no byte. -/
theorem slot_apart (sp : Word) {j k : Nat} (hj : j < 32768) (hk : k < 32768) (h : j ≠ k) :
    (slot sp j).toNat ≠ (slot sp k).toNat ∧ (slot sp j).toNat ≠ (slot sp k).toNat + 1 ∧
      (slot sp j).toNat + 1 ≠ (slot sp k).toNat := by
  have := sp.isLt
  rw [slot_toNat sp hj, slot_toNat sp hk]
  split <;> split <;> omega

/-- All that the pushes of a list of registers can do when they answer a state. -/
theorem pushRegs_eq_ok {rs : List Reg} {s t : State} (h : pushRegs rs s = .ok t) :
    t.get .sp = slot (s.get .sp) rs.length ∧ (∀ r, r ≠ .sp → t.get r = s.get r) ∧
      t.sfs = s.sfs + BitVec.ofNat 16 (2 * rs.length) ∧ t.mem.size = s.mem.size ∧
      (∀ k < rs.length, (slot (s.get .sp) k).toNat + 1 < s.mem.size) ∧
      (∀ c, (∀ k < rs.length, c ≠ (slot (s.get .sp) k).toNat ∧ c ≠ (slot (s.get .sp) k).toNat + 1) →
        t.mem.byteAt c = s.mem.byteAt c) ∧
      (s.mem.wf = true → t.mem.wf = true) := by
  induction rs generalizing s with
  | nil => cases h; simp [slot_zero]
  | cons r rs ih =>
    simp only [pushRegs] at h
    split at h
    · rename_i u hu
      obtain ⟨p1, p2, p3, p4, p5, p6, p7⟩ := push_eq_ok hu
      obtain ⟨q1, q2, q3, q4, q5, q6, q7⟩ := ih h
      rw [p2] at q1 q5 q6
      simp only [slot_succ] at q1 q5 q6
      refine ⟨q1, fun q hq => (q2 q hq).trans (p3 q hq), ?_, q4.trans p5, ?_, ?_, fun w => q7 (p7 w)⟩
      · rw [q3, p4, List.length_cons, ofNat_two_mul_succ, BitVec.add_assoc]
      · intro k hk
        cases k with
        | zero => rw [slot_zero]; exact p1
        | succ k => rw [← p5]; exact q5 k (by simpa using hk)
      · intro c hc
        rw [q6 c fun k hk => hc (k + 1) (by simpa using hk), p6 c]
        have h0 := hc 0 (by simp)
        rw [slot_zero] at h0
        simp [h0.1, h0.2]
    · cases h

/-- The words that the pushes of a list of registers leave in memory. -/
theorem pushRegs_read {rs : List Reg} {s t : State} (h : pushRegs rs s = .ok t) (hrs : Reg.sp ∉ rs)
    (hlen : rs.length < 32768) (k : Nat) (hk : k < rs.length) :
    t.mem.read16 (slot (s.get .sp) k).toNat = s.get rs[k] := by
  induction rs generalizing s k with
  | nil => simp at hk
  | cons r rs ih =>
    simp only [pushRegs] at h
    split at h
    · rename_i u hu
      obtain ⟨p1, p2, p3, p4, p5, p6, p7⟩ := push_eq_ok hu
      simp only [List.mem_cons, not_or] at hrs
      simp only [List.length_cons] at hlen hk
      cases k with
      | zero =>
        obtain ⟨-, -, -, -, -, q6, -⟩ := pushRegs_eq_ok h
        rw [p2] at q6
        simp only [slot_succ] at q6
        have far : ∀ j < rs.length, _ := fun j hj =>
          slot_apart (s.get .sp) (show 0 < 32768 by omega) (show j + 1 < 32768 by omega) (by omega)
        have e0 := q6 (slot (s.get .sp) 0).toNat fun j hj => ⟨(far j hj).1, (far j hj).2.1⟩
        have e1 := q6 ((slot (s.get .sp) 0).toNat + 1) fun j hj =>
          ⟨(far j hj).2.2, fun e => (far j hj).1 (by omega)⟩
        rw [Memory.read16_congr e0 e1, slot_zero, Memory.read16, p6, p6]
        simp
      | succ k =>
        have := ih h hrs.2 (by omega) k (by omega)
        rw [p2, slot_succ] at this
        rw [this, List.getElem_cons_succ]
        exact p3 _ fun e => hrs.2 (e ▸ List.getElem_mem _)
    · cases h

/-- Where the pushes of a list of registers have no successor state: at the first slot out of range. -/
theorem pushRegs_eq_error {rs : List Reg} {s : State} {b : Word} (h : pushRegs rs s = .error b) :
    ∃ k < rs.length, b = slot (s.get .sp) k ∧ s.mem.size ≤ b.toNat + 1 ∧
      ∀ j < k, (slot (s.get .sp) j).toNat + 1 < s.mem.size := by
  induction rs generalizing s with
  | nil => cases h
  | cons r rs ih =>
    simp only [pushRegs] at h
    split at h
    · rename_i u hu
      obtain ⟨p1, p2, -, -, p5, -, -⟩ := push_eq_ok hu
      obtain ⟨k, hk, hb, hs, hj⟩ := ih h
      rw [p2, slot_succ] at hb
      rw [p2, p5] at hj
      refine ⟨k + 1, by simpa using hk, hb, p5 ▸ hs, fun j hjk => ?_⟩
      cases j with
      | zero => rw [slot_zero]; exact p1
      | succ j => rw [← slot_succ]; exact hj j (by omega)
    · rename_i c hc
      cases h
      obtain ⟨h1, h2⟩ := push_eq_error_iff.mp hc
      exact ⟨0, by simp, by rw [h2, slot_zero], h2 ▸ h1, by simp⟩

@[simp] theorem popRegs_mem (rs : List Reg) (s : State) : (popRegs rs s).mem = s.mem := by
  induction rs generalizing s with
  | nil => rfl
  | cons r rs ih => simp [popRegs, ih]

theorem popRegs_sfs (rs : List Reg) (s : State) :
    (popRegs rs s).sfs = s.sfs - BitVec.ofNat 16 (2 * rs.length) := by
  induction rs generalizing s with
  | nil => simp [popRegs]
  | cons r rs ih => rw [popRegs, ih, popInto_sfs, List.length_cons, ofNat_two_mul_succ, BitVec.sub_sub]

theorem popRegs_sp {rs : List Reg} (h : Reg.sp ∉ rs) (s : State) :
    (popRegs rs s).get .sp = s.get .sp + BitVec.ofNat 16 (2 * rs.length) := by
  induction rs generalizing s with
  | nil => simp [popRegs]
  | cons r rs ih =>
    simp only [List.mem_cons, not_or] at h
    rw [popRegs, ih h.2, popInto_get, if_neg h.1, if_pos rfl, List.length_cons, ofNat_two_mul_succ, BitVec.add_assoc]

theorem popRegs_get_of_not_mem {rs : List Reg} {q : Reg} (h : q ∉ rs) (hq : q ≠ .sp) (s : State) :
    (popRegs rs s).get q = s.get q := by
  induction rs generalizing s with
  | nil => rfl
  | cons r rs ih =>
    simp only [List.mem_cons, not_or] at h
    rw [popRegs, ih h.2, popInto_get, if_neg h.1, if_neg hq]

/-! ### The entry of a call -/

/-- All that `PushState` can do when it answers a state, but for the words it leaves in memory, which `pushState_read`
gives. -/
theorem pushState_eq_ok {s t : State} (h : pushState s = .ok t) :
    t.get .sp = slot (s.get .sp) 10 ∧ t.get .fp = slot (s.get .sp) 10 ∧
      (∀ r, r ≠ .sp → r ≠ .fp → t.get r = s.get r) ∧ t.sfs = s.sfs + 20#16 ∧ t.mem.size = s.mem.size ∧
      (∀ k < 10, (slot (s.get .sp) k).toNat + 1 < s.mem.size) ∧
      (∀ c, (∀ k < 10, c ≠ (slot (s.get .sp) k).toNat ∧ c ≠ (slot (s.get .sp) k).toNat + 1) →
        t.mem.byteAt c = s.mem.byteAt c) ∧
      (s.mem.wf = true → t.mem.wf = true) := by
  unfold pushState at h
  split at h
  · cases h
  · rename_i u hu
    split at h
    · cases h
    · rename_i w hw
      cases h
      obtain ⟨p1, p2, p3, p4, p5, p6, p7⟩ := pushRegs_eq_ok hu
      obtain ⟨q1, q2, q3, q4, q5, q6, q7⟩ := push_eq_ok hw
      have hl : savedRegs.length = 9 := rfl
      rw [hl] at p1 p3 p5 p6
      rw [p1] at q1 q2 q6
      have hsp : w.get .sp = slot (s.get .sp) 10 := by rw [q2]; unfold slot; bv_omega
      refine ⟨?_, ?_, ?_, ?_, ?_, ?_, ?_, ?_⟩
      · rw [State.get_set_of_ne _ _ (by decide), hsp]
      · rw [State.get_set_self, hsp]
      · intro r h1 h2
        rw [State.get_set_of_ne _ _ h2, q3 r h1, p2 r h1]
      · rw [State.set_sfs, q4, p3]; bv_omega
      · rw [State.set_mem, q5, p4]
      · intro k hk
        by_cases h9 : k = 9
        · rw [h9, ← p4]; exact q1
        · exact p5 k (by omega)
      · intro c hc
        rw [State.set_mem, q6, if_neg (hc 9 (by omega)).1, if_neg (hc 9 (by omega)).2]
        exact p6 c fun k hk => hc k (by omega)
      · intro hwf
        rw [State.set_mem]
        exact q7 (p7 hwf)

/-- The ten words that `PushState` leaves in memory: the nine saved registers and the marker. -/
theorem pushState_read {s t : State} (h : pushState s = .ok t) :
    (∀ (k : Nat) (hk : k < savedRegs.length), t.mem.read16 (slot (s.get .sp) k).toNat = s.get savedRegs[k]) ∧
      t.mem.read16 (slot (s.get .sp) 9).toNat = s.sfs + 20#16 := by
  unfold pushState at h
  split at h
  · cases h
  · rename_i u hu
    split at h
    · cases h
    · rename_i w hw
      cases h
      obtain ⟨p1, -, p3, -, -, -, -⟩ := pushRegs_eq_ok hu
      obtain ⟨-, -, -, -, -, q6, -⟩ := push_eq_ok hw
      have hl : savedRegs.length = 9 := rfl
      rw [hl] at p1 p3
      rw [p1] at q6
      constructor
      · intro k hk
        rw [State.set_mem, ← pushRegs_read hu (by decide) (by rw [hl]; omega) k hk]
        rw [hl] at hk
        obtain ⟨f1, f2, f3⟩ := slot_apart (s.get .sp) (show k < 32768 by omega) (show 9 < 32768 by omega) (by omega)
        apply Memory.read16_congr
        · rw [q6, if_neg f1, if_neg f2]
        · rw [q6, if_neg f3, if_neg (by omega)]
      · rw [State.set_mem, Memory.read16, q6, q6, if_pos rfl, if_neg (by omega), if_pos rfl, wordOfBytes_high_low, p3]
        bv_omega

/-- Where `PushState` has no successor state: at the first of the ten slots that is out of range. -/
theorem pushState_eq_error {s : State} {b : Word} (h : pushState s = .error b) :
    ∃ k < 10, b = slot (s.get .sp) k ∧ s.mem.size ≤ b.toNat + 1 ∧
      ∀ j < k, (slot (s.get .sp) j).toNat + 1 < s.mem.size := by
  unfold pushState at h
  have hl : savedRegs.length = 9 := rfl
  split at h
  · rename_i a ha
    cases h
    obtain ⟨k, hk, rest⟩ := pushRegs_eq_error ha
    exact ⟨k, by omega, rest⟩
  · rename_i u hu
    split at h
    · rename_i a ha
      cases h
      obtain ⟨p1, -, -, p4, p5, -, -⟩ := pushRegs_eq_ok hu
      rw [hl] at p1 p5
      obtain ⟨h1, h2⟩ := push_eq_error_iff.mp ha
      rw [p1] at h1 h2
      exact ⟨9, by omega, h2, by rw [h2]; omega, p5⟩
    · cases h

/-! ### The exit of a call -/

/-- The address of the word that the pop after `k` others reads, for the stack pointer before all of them. -/
def popSlot (sp : Word) (k : Nat) : Word := sp + BitVec.ofNat 16 (2 * k + 2)

theorem popRegs_cons_get {r : Reg} {rs : List Reg} (hr : r ∉ rs) (hsp : r ≠ .sp) (s : State) :
    (popRegs (r :: rs) s).get r = s.mem.read16 (s.get .sp + 2#16).toNat := by
  rw [popRegs, popRegs_get_of_not_mem hr hsp, popInto_get, if_pos rfl]

/-- Each register of a list is loaded with the word that its pop reads. -/
theorem popRegs_getElem {rs : List Reg} (nd : rs.Nodup) (hsp : Reg.sp ∉ rs) (s : State) (k : Nat) (hk : k < rs.length) :
    (popRegs rs s).get rs[k] = s.mem.read16 (popSlot (s.get .sp) k).toNat := by
  induction rs generalizing s k with
  | nil => simp at hk
  | cons r rs ih =>
    simp only [List.mem_cons, not_or] at hsp
    rw [List.nodup_cons] at nd
    cases k with
    | zero =>
      rw [List.getElem_cons_zero, popRegs_cons_get nd.1 (Ne.symm hsp.1)]
      simp [popSlot]
    | succ k =>
      rw [List.getElem_cons_succ, popRegs, ih nd.2 hsp.2 _ k (by simpa using hk), popInto_mem, popInto_get, if_neg hsp.1,
        if_pos rfl]
      rw [popSlot, popSlot, ← Nat.mul_succ, ← Nat.mul_succ, ofNat_two_mul_succ (k + 1), BitVec.add_assoc]

/-- The word that `PopState` takes as the number of words to discard. -/
def returnCount (s : State) : Word := s.mem.read16 (s.get .fp + 22#16).toNat

/-- All that `PopState` does. -/
theorem popState_spec (s : State) :
    (popState s).get .sp = s.get .fp + 22#16 + 2#16 * returnCount s ∧
      (popState s).get .fp = s.get .fp + s.mem.read16 (s.get .fp + 2#16).toNat ∧
      (∀ (k : Nat) (hk : k < restoredRegs.length),
        (popState s).get restoredRegs[k] = s.mem.read16 (s.get .fp + BitVec.ofNat 16 (2 * k + 4)).toNat) ∧
      (popState s).get .acc = s.get .acc ∧ (popState s).sfs = s.sfs - 22#16 - 2#16 * returnCount s ∧
      (popState s).mem = s.mem := by
  have hl : restoredRegs.length = 9 := rfl
  have hsp : Reg.sp ∉ restoredRegs := by decide
  have hn : ∀ q : State, q.mem = s.mem → q.get .sp = s.get .fp + 20#16 → (pop q).1 = returnCount s := by
    intro q h1 h2
    rw [pop_value, h1, h2, returnCount, BitVec.add_assoc]
    rfl
  have hspv : (popRegs restoredRegs (pop (s.set .sp (s.get .fp))).2).get .sp = s.get .fp + 20#16 := by
    rw [popRegs_sp hsp, hl, pop_state, State.get_setSfs, State.get_set_self, State.get_set_self, BitVec.add_assoc]
    rfl
  have hmem : (popRegs restoredRegs (pop (s.set .sp (s.get .fp))).2).mem = s.mem := by simp
  have hc := hn _ hmem hspv
  simp only [popState]
  refine ⟨?_, ?_, ?_, ?_, ?_, ?_⟩
  · rw [State.get_set_of_ne _ _ (by decide), popN_sp, hc, pop_state, State.get_setSfs, State.get_set_self, hspv,
      BitVec.add_assoc (s.get .fp)]
    rfl
  · rw [State.get_set_self, pop_value, State.set_mem, State.get_set_self]
  · intro k hk
    have hm : restoredRegs[k] ∈ restoredRegs := List.getElem_mem hk
    have h1 : restoredRegs[k] ≠ .fp := fun e => absurd (e ▸ hm) (by decide)
    have h2 : restoredRegs[k] ≠ .sp := fun e => absurd (e ▸ hm) (by decide)
    rw [State.get_set_of_ne _ _ h1, popN_get_of_ne _ _ h2, pop_state, State.get_setSfs, State.get_set_of_ne _ _ h2,
      popRegs_getElem (by decide) hsp _ k hk, pop_state, State.setSfs_mem, State.set_mem, State.set_mem,
      State.get_setSfs, State.get_set_self, State.get_set_self, popSlot, BitVec.add_assoc, ← BitVec.ofNat_add,
      show 2 + (2 * k + 2) = 2 * k + 4 by omega]
  · rw [State.get_set_of_ne _ _ (by decide), popN_get_of_ne _ _ (by decide), pop_state, State.get_setSfs,
      State.get_set_of_ne _ _ (by decide), popRegs_get_of_not_mem (by decide) (by decide), pop_state, State.get_setSfs,
      State.get_set_of_ne _ _ (by decide), State.get_set_of_ne _ _ (by decide)]
  · rw [State.set_sfs, popN_sfs, hc, pop_state, State.setSfs_sfs, popRegs_sfs, pop_state, State.setSfs_sfs, State.set_sfs, hl,
      BitVec.sub_sub s.sfs, BitVec.sub_sub s.sfs]
    rfl
  · simp

end Sys2Proof.Machine
end

