-- ==== Sys2Proof/Laws/PerInstr.lean ====
section
/-! SUPPORT. The family `EncodedLength`: the encoding of an instruction is as long as the instruction, and its first byte
is an opcode byte of that length (spec/30_encoding.md rule R88). -/

namespace Sys2Proof.Laws.EncodedLength

/-- What the family says of an instruction. -/
def Statement (i : Instr) : Prop :=
  (encode i).length = i.length ∧ ∃ op bs, encode i = op :: bs ∧ lengthOfOpcode op = i.length

theorem movLitReg (literal : Word) (dst : Reg) : Statement (.movLitReg literal dst) := ⟨rfl, _, _, rfl, rfl⟩

theorem movRegReg (src dst : Reg) : Statement (.movRegReg src dst) := ⟨rfl, _, _, rfl, rfl⟩

theorem movRegMem (src : Reg) (address : Word) : Statement (.movRegMem src address) := ⟨rfl, _, _, rfl, rfl⟩

theorem movMemReg (address : Word) (dst : Reg) : Statement (.movMemReg address dst) := ⟨rfl, _, _, rfl, rfl⟩

theorem addRegReg (reg1 reg2 : Reg) : Statement (.addRegReg reg1 reg2) := ⟨rfl, _, _, rfl, rfl⟩

theorem jmpNotEq (value address : Word) : Statement (.jmpNotEq value address) := ⟨rfl, _, _, rfl, rfl⟩

theorem pshLit (literal : Word) : Statement (.pshLit literal) := ⟨rfl, _, _, rfl, rfl⟩

theorem pshReg (src : Reg) : Statement (.pshReg src) := ⟨rfl, _, _, rfl, rfl⟩

theorem pop (dst : Reg) : Statement (.pop dst) := ⟨rfl, _, _, rfl, rfl⟩

theorem calLit (address : Word) : Statement (.calLit address) := ⟨rfl, _, _, rfl, rfl⟩

theorem calReg (src : Reg) : Statement (.calReg src) := ⟨rfl, _, _, rfl, rfl⟩

theorem ret : Statement (.ret) := ⟨rfl, _, _, rfl, rfl⟩

theorem unassigned00To0F (low : BitVec 4) : Statement (.unassigned00To0F low) := ⟨rfl, _, [], rfl, by revert low; decide⟩

theorem unassigned16 : Statement (.unassigned16) := ⟨rfl, _, _, rfl, rfl⟩

theorem unassigned19 : Statement (.unassigned19) := ⟨rfl, _, _, rfl, rfl⟩

theorem unassigned1B : Statement (.unassigned1B) := ⟨rfl, _, _, rfl, rfl⟩

theorem unassigned1CTo1F (low : BitVec 2) : Statement (.unassigned1CTo1F low) := ⟨rfl, _, [], rfl, by revert low; decide⟩

theorem unassigned20To3F (low : BitVec 5) : Statement (.unassigned20To3F low) := ⟨rfl, _, [], rfl, by revert low; decide⟩

theorem unassigned40To4F (low : BitVec 4) : Statement (.unassigned40To4F low) := ⟨rfl, _, [], rfl, by revert low; decide⟩

theorem unassigned50To57 (low : BitVec 3) : Statement (.unassigned50To57 low) := ⟨rfl, _, [], rfl, by revert low; decide⟩

theorem unassigned58To5B (low : BitVec 2) : Statement (.unassigned58To5B low) := ⟨rfl, _, [], rfl, by revert low; decide⟩

theorem unassigned5CTo5D (low : BitVec 1) : Statement (.unassigned5CTo5D low) := ⟨rfl, _, [], rfl, by revert low; decide⟩

theorem unassigned61 : Statement (.unassigned61) := ⟨rfl, _, _, rfl, rfl⟩

theorem unassigned62To63 (low : BitVec 1) : Statement (.unassigned62To63 low) := ⟨rfl, _, [], rfl, by revert low; decide⟩

theorem unassigned64To67 (low : BitVec 2) : Statement (.unassigned64To67 low) := ⟨rfl, _, [], rfl, by revert low; decide⟩

theorem unassigned68To6F (low : BitVec 3) : Statement (.unassigned68To6F low) := ⟨rfl, _, [], rfl, by revert low; decide⟩

theorem unassigned70To7F (low : BitVec 4) : Statement (.unassigned70To7F low) := ⟨rfl, _, [], rfl, by revert low; decide⟩

theorem unassigned80ToFF (low : BitVec 7) : Statement (.unassigned80ToFF low) := ⟨rfl, _, [], rfl, by revert low; decide⟩

end Sys2Proof.Laws.EncodedLength
end

