-- ==== Sys2Proof/Laws/Run.lean ====
section
/-! SUPPORT. Runs of several steps, and a step as the bytes it fetches. -/

namespace Sys2Proof.Machine

/-- A step is the run of the bytes that the fetch unit reads, on the state whose `ip` is past them. -/
theorem step_eq_runBytes (s : State) : step s = runBytes (fetchInstr s).1 (fetchInstr s).2 := rfl

theorem run_zero (s : State) : Sys2Proof.core.run 0 s = .next s := rfl

/-- A run whose first step answers `t` goes on from `t`. -/
theorem run_succ_of_next {k : Nat} {s t : State} (h : step s = .next t) :
    Sys2Proof.core.run (k + 1) s = Sys2Proof.core.run k t := by
  have e : Sys2Proof.core.step s = .next t := h
  exact (Host.Core.run.eq_2 Sys2Proof.core s k).trans (by rw [e])

end Sys2Proof.Machine
end

