-- ==== Sys2Proof/Tests/Slice0.lean ====
section
/-! SUPPORT. Tests of single steps, with the expected results of spec/95_test_vectors.md (each test names its vector), the
words of spec/30_encoding.md and spec/opcode_table.json, the smoke tests of the checks, and for every statement with
hypotheses a state and operands that meet them. -/

namespace Sys2Proof.Tests

open Sys2Proof.Machine

/-! ### A small state, and what a step does to it -/

/-- The reset state with some registers set and some blocks of bytes in memory (spec/95_test_vectors.md, Conventions). -/
def start (size : Nat) (regs : List (Reg × Word)) (blocks : List (Nat × List Byte)) : State :=
  blocks.foldl (fun s b => s.setMem (s.mem.putBytes b.1 b.2))
    (regs.foldl (fun s p => s.set p.1 p.2) (State.resetOfSize size))

/-- The outcome is a next state in which the registers, `sfs` and the bytes are as listed. -/
def shows (o : Host.Outcome State Fault Refusal) (regs : List (Reg × Word)) (sfs : Word) (bytes : List (Nat × Byte)) :
    Bool :=
  match o with
  | .next t =>
    regs.all (fun p => t.get p.1 == p.2) && t.sfs == sfs && bytes.all (fun p => t.mem.byteAt p.1 == p.2) && t.mem.wf
  | .fault _ => false
  | .refused _ => false

/-- The outcome is that fault. -/
def faults (o : Host.Outcome State Fault Refusal) (f : Fault) : Bool :=
  match o with
  | .fault g => g == f
  | .next _ => false
  | .refused _ => false

/-! ### Fetch, decode, unassigned opcodes -/

/-- F2: `ip` wraps. -/
theorem test_unassigned_wraps :
    shows (step (start 65536 [(.ip, 0xFFFF#16)] [(0xFFFF, [0xFF#8])])) [(.ip, 0x0000#16)] 0#16 [] = true := by decide

/-- F3c: the bytes after an unassigned opcode are not consumed. -/
theorem test_unassigned_takes_no_operand :
    shows (step (start 65536 [(.ip, 0x0020#16)] [(0x20, [0x19#8, 0x02#8, 0x03#8])]))
      [(.ip, 0x0021#16), (.r1, 0#16), (.r2, 0#16), (.sp, 0xFFFE#16)] 0#16 [] = true := by decide

/-- F4: a fetch outside memory reads a no-op. -/
theorem test_fetch_outside_memory :
    shows (step (start 256 [(.ip, 0x0100#16)] [])) [(.ip, 0x0101#16)] 0#16 [] = true := by decide

/-- F5: `Fetch16` at `0xFFFF` takes its low byte from `0x10000`, and the register byte is at address 1. -/
theorem test_fetch16_at_top :
    shows (step (start 65536 [(.ip, 0xFFFE#16)] [(0xFFFE, [0x10#8, 0x12#8]), (0, [0x34#8, 0x02#8])]))
      [(.ip, 0x0002#16), (.r1, 0x1200#16)] 0#16 [] = true := by decide

/-! ### Data movement -/

/-- M2: register byte 0E selects r1. -/
theorem test_movLitReg_alias :
    shows (step (start 65536 [] [(0, [0x10#8, 0x12#8, 0x34#8, 0x0E#8])]))
      [(.ip, 0x0004#16), (.r1, 0x1234#16), (.acc, 0#16)] 0#16 [] = true := by decide

/-- M4: destination `ip` is a jump. -/
theorem test_movLitReg_jump :
    shows (step (start 65536 [] [(0, [0x10#8, 0x00#8, 0x40#8, 0x00#8])])) [(.ip, 0x0040#16)] 0#16 [] = true := by decide

/-- M5. -/
theorem test_movRegReg_direction :
    shows (step (start 65536 [(.ip, 0x0010#16), (.r1, 0xBEEF#16), (.r4, 0x1111#16)] [(0x10, [0x11#8, 0x02#8, 0x05#8])]))
      [(.ip, 0x0013#16), (.r1, 0xBEEF#16), (.r4, 0xBEEF#16)] 0#16 [] = true := by decide

/-- F7: the source `ip` reads the wrapped address after the instruction. -/
theorem test_movRegReg_reads_ip :
    shows (step (start 65536 [(.ip, 0xFFFD#16), (.r1, 0x5555#16)] [(0xFFFD, [0x11#8, 0x00#8, 0x02#8])]))
      [(.ip, 0x0000#16), (.r1, 0x0000#16)] 0#16 [] = true := by decide

/-- M18b: the store overwrites the instruction's own operand bytes after they were fetched. -/
theorem test_movRegMem_over_itself :
    shows (step (start 65536 [] [(0, [0x12#8, 0x02#8, 0x00#8, 0x01#8])])) [(.ip, 0x0004#16)] 0#16
      [(0, 0x12#8), (1, 0x00#8), (2, 0x00#8), (3, 0x01#8)] = true := by decide

/-- M13: the high byte in range, the low byte not. -/
theorem test_movRegMem_half_out :
    faults (step (start 256 [(.r1, 0x1234#16)] [(0, [0x12#8, 0x02#8, 0x00#8, 0xFF#8])]))
      (.storeOutOfRange (.movRegMem .r1 0x00FF#16) 0x0000#16 0x00FF#16) = true := by decide

/-- M20: odd-address load. -/
theorem test_movMemReg_odd :
    shows (step (start 65536 [] [(0, [0x13#8, 0x01#8, 0x01#8, 0x02#8]), (0x100, [0x11#8, 0x22#8, 0x33#8])]))
      [(.ip, 0x0004#16), (.r1, 0x2233#16)] 0#16 [] = true := by decide

/-- M19: the low byte at `0x10000` reads 0. -/
theorem test_movMemReg_top :
    shows (step (start 65536 [] [(0, [0x13#8, 0xFF#8, 0xFF#8, 0x02#8]), (0xFFFF, [0xCD#8])]))
      [(.ip, 0x0004#16), (.r1, 0xCD00#16)] 0#16 [] = true := by decide

/-! ### Arithmetic and branch -/

/-- A2: the source's overflow example. -/
theorem test_addRegReg_wraps :
    shows (step (start 65536 [(.r1, 0xFFFF#16), (.r2, 0x0002#16)] [(0, [0x14#8, 0x02#8, 0x03#8])]))
      [(.ip, 0x0003#16), (.acc, 0x0001#16), (.r1, 0xFFFF#16), (.r2, 0x0002#16)] 0#16 [] = true := by decide

/-- A6: `acc` as a source. -/
theorem test_addRegReg_acc_source :
    shows (step (start 65536 [(.acc, 0x0010#16), (.r1, 0x0001#16)] [(0, [0x14#8, 0x01#8, 0x02#8])]))
      [(.ip, 0x0003#16), (.acc, 0x0011#16)] 0#16 [] = true := by decide

/-- J1: taken on difference. -/
theorem test_jmpNotEq_taken :
    shows (step (start 65536 [(.ip, 0x0007#16), (.acc, 0x0001#16)] [(7, [0x15#8, 0x00#8, 0x03#8, 0x00#8, 0x04#8])]))
      [(.ip, 0x0004#16), (.acc, 0x0001#16)] 0#16 [] = true := by decide

/-- J2: falls through on equality. -/
theorem test_jmpNotEq_not_taken :
    shows (step (start 65536 [(.ip, 0x0007#16), (.acc, 0x0003#16)] [(7, [0x15#8, 0x00#8, 0x03#8, 0x00#8, 0x04#8])]))
      [(.ip, 0x000C#16), (.acc, 0x0003#16)] 0#16 [] = true := by decide

/-! ### Stack -/

/-- K1. -/
theorem test_pshLit :
    shows (step (start 65536 [] [(0, [0x17#8, 0x12#8, 0x34#8])])) [(.ip, 0x0003#16), (.sp, 0xFFFC#16)] 2#16
      [(0xFFFE, 0x12#8), (0xFFFF, 0x34#8)] = true := by decide

/-- K10: `sp` wraps below zero. -/
theorem test_pshLit_wraps :
    shows (step (start 65536 [(.ip, 0x0010#16), (.sp, 0x0000#16)] [(0x10, [0x17#8, 0xAB#8, 0xCD#8])]))
      [(.ip, 0x0013#16), (.sp, 0xFFFE#16)] 2#16 [(0, 0xAB#8), (1, 0xCD#8)] = true := by decide

/-- K3: pushes `sp` before the decrement. -/
theorem test_pshReg_sp :
    shows (step (start 65536 [] [(0, [0x18#8, 0x0A#8])])) [(.ip, 0x0002#16), (.sp, 0xFFFC#16)] 2#16
      [(0xFFFE, 0xFF#8), (0xFFFF, 0xFE#8)] = true := by decide

/-- The rule of K13 for PSH_REG: `sp = 0xFFFF` puts the low byte at `0x10000`. -/
theorem test_pshReg_out :
    faults (step (start 65536 [(.ip, 0x0010#16), (.sp, 0xFFFF#16)] [(0x10, [0x18#8, 0x02#8])]))
      (.storeOutOfRange (.pshReg .r1) 0x0010#16 0xFFFF#16) = true := by decide

/-- K7: pop on an empty stack reads address 0, the instruction itself. -/
theorem test_pop_empty :
    shows (step (start 65536 [] [(0, [0x1A#8, 0x02#8])]))
      [(.ip, 0x0002#16), (.r1, 0x1A02#16), (.sp, 0x0000#16)] 0xFFFE#16 [] = true := by decide

/-- K8 (with `sfs` at 0): the word popped into `sp` stays there. -/
theorem test_pop_into_sp :
    shows (step (start 65536 [(.sp, 0xFFFC#16)] [(0, [0x1A#8, 0x0A#8]), (0xFFFE, [0x80#8, 0x00#8])]))
      [(.ip, 0x0002#16), (.sp, 0x8000#16)] 0xFFFE#16 [] = true := by decide

/-! ### Call and return -/

/-- L10: `sp` wraps during the pushes. -/
theorem test_calLit_wraps :
    shows (step (start 65536 [(.ip, 0x0020#16), (.sp, 0x0010#16), (.r1, 0x0101#16), (.r7, 0x0707#16), (.r8, 0x0808#16)]
        [(0x20, [0x5E#8, 0x00#8, 0x40#8])]))
      [(.ip, 0x0040#16), (.sp, 0xFFFC#16), (.fp, 0xFFFC#16), (.r8, 0x0808#16)] 0x0014#16
      [(0x10, 1#8), (0x11, 1#8), (0x0F, 0#8), (4, 7#8), (5, 7#8), (2, 8#8), (3, 8#8), (0, 0#8), (1, 0x23#8),
        (0xFFFE, 0#8), (0xFFFF, 0x14#8)] = true := by decide

/-- L9: the marker push is out of range. -/
theorem test_calLit_out :
    faults (step (start 256 [(.ip, 0x0020#16), (.sp, 0x0010#16)] [(0x20, [0x5E#8, 0x00#8, 0x40#8])]))
      (.storeOutOfRange (.calLit 0x0040#16) 0x0020#16 0xFFFE#16) = true := by decide

/-- L2. -/
theorem test_calReg :
    shows (step (start 65536 [(.ip, 0x000D#16), (.r3, 0x0020#16)] [(0x0D, [0x5F#8, 0x04#8])]))
      [(.ip, 0x0020#16), (.sp, 0xFFEA#16), (.fp, 0xFFEA#16)] 0x0014#16
      [(0xFFFA, 0x00#8), (0xFFFB, 0x20#8), (0xFFEE, 0x00#8), (0xFFEF, 0x0F#8), (0xFFEC, 0x00#8), (0xFFED, 0x14#8)] =
      true := by decide

/-- L4b: the target is `fp` before the call. -/
theorem test_calReg_fp :
    shows (step (start 65536 [(.ip, 0x0010#16), (.fp, 0x1234#16)] [(0x10, [0x5F#8, 0x0B#8])]))
      [(.ip, 0x1234#16), (.sp, 0xFFEA#16), (.fp, 0xFFEA#16)] 0x0014#16 [] = true := by decide

/-- L7 (with `sfs` at 0): a hand-built frame. -/
theorem test_ret_frame :
    shows (step (start 65536 [(.ip, 0x0010#16), (.fp, 0x8000#16), (.sp, 0x7000#16)]
        [(0x10, [0x60#8]), (0x8002, [0x00#8, 0x30#8, 0x02#8, 0x00#8, 0x00#8, 0x08#8, 0x00#8, 0x07#8, 0x00#8, 0x06#8,
          0x00#8, 0x05#8, 0x00#8, 0x04#8, 0x00#8, 0x03#8, 0x00#8, 0x02#8, 0x00#8, 0x01#8, 0x00#8, 0x03#8])]))
      [(.ip, 0x0200#16), (.r1, 1#16), (.r2, 2#16), (.r3, 3#16), (.r4, 4#16), (.r5, 5#16), (.r6, 6#16), (.r7, 7#16),
        (.r8, 8#16), (.sp, 0x801C#16), (.fp, 0x8030#16)] 0xFFE4#16 [] = true := by decide

/-- L11: `nArgs` is `0xFFFF`. -/
theorem test_ret_many_arguments :
    shows (step (start 65536 [(.ip, 0x0010#16), (.fp, 0x8000#16)]
        [(0x10, [0x60#8]), (0x8005, [0x11#8]), (0x8016, [0xFF#8, 0xFF#8])]))
      [(.ip, 0x0011#16), (.sp, 0x8014#16), (.fp, 0x8000#16)] 0xFFEC#16 [] = true := by decide

/-! ### One word for every constructor, from the encodings of spec/30_encoding.md and spec/opcode_table.json -/

theorem decodes_movLitReg : decodeTableWord 32 0x10123402 = some (.movLitReg 0x1234#16 .r1) := by decide
theorem decodes_movRegReg : decodeTableWord 24 0x110205 = some (.movRegReg .r1 .r4) := by decide
theorem decodes_movRegMem : decodeTableWord 32 0x12010100 = some (.movRegMem .acc 0x0100#16) := by decide
theorem decodes_movMemReg : decodeTableWord 32 0x13010003 = some (.movMemReg 0x0100#16 .r2) := by decide
theorem decodes_addRegReg : decodeTableWord 24 0x14080A = some (.addRegReg .r7 .sp) := by decide
theorem decodes_jmpNotEq : decodeTableWord 40 0x1500030004 = some (.jmpNotEq 0x0003#16 0x0004#16) := by decide
theorem decodes_pshLit : decodeTableWord 24 0x171234 = some (.pshLit 0x1234#16) := by decide
theorem decodes_pshReg : decodeTableWord 16 0x180A = some (.pshReg .sp) := by decide
theorem decodes_pop : decodeTableWord 16 0x1A02 = some (.pop .r1) := by decide
theorem decodes_calLit : decodeTableWord 24 0x5E0020 = some (.calLit 0x0020#16) := by decide
theorem decodes_calReg : decodeTableWord 16 0x5F04 = some (.calReg .r3) := by decide
theorem decodes_ret : decodeTableWord 8 0x60 = some .ret := by decide
theorem decodes_unassigned00To0F : decodeTableWord 8 0x0A = some (.unassigned00To0F 0b1010#4) := by decide
theorem decodes_unassigned16 : decodeTableWord 8 0x16 = some .unassigned16 := by decide
theorem decodes_unassigned19 : decodeTableWord 8 0x19 = some .unassigned19 := by decide
theorem decodes_unassigned1B : decodeTableWord 8 0x1B = some .unassigned1B := by decide
theorem decodes_unassigned1CTo1F : decodeTableWord 8 0x1E = some (.unassigned1CTo1F 0b10#2) := by decide
theorem decodes_unassigned20To3F : decodeTableWord 8 0x33 = some (.unassigned20To3F 0b10011#5) := by decide
theorem decodes_unassigned40To4F : decodeTableWord 8 0x4C = some (.unassigned40To4F 0b1100#4) := by decide
theorem decodes_unassigned50To57 : decodeTableWord 8 0x56 = some (.unassigned50To57 0b110#3) := by decide
theorem decodes_unassigned58To5B : decodeTableWord 8 0x59 = some (.unassigned58To5B 0b01#2) := by decide
theorem decodes_unassigned5CTo5D : decodeTableWord 8 0x5D = some (.unassigned5CTo5D 0b1#1) := by decide
theorem decodes_unassigned61 : decodeTableWord 8 0x61 = some .unassigned61 := by decide
theorem decodes_unassigned62To63 : decodeTableWord 8 0x63 = some (.unassigned62To63 0b1#1) := by decide
theorem decodes_unassigned64To67 : decodeTableWord 8 0x66 = some (.unassigned64To67 0b10#2) := by decide
theorem decodes_unassigned68To6F : decodeTableWord 8 0x6B = some (.unassigned68To6F 0b011#3) := by decide
theorem decodes_unassigned70To7F : decodeTableWord 8 0x75 = some (.unassigned70To7F 0b0101#4) := by decide
theorem decodes_unassigned80ToFF : decodeTableWord 8 0xC1 = some (.unassigned80ToFF 0b1000001#7) := by decide

/-- Bits past those the table gives are 0, and a truncated list is rejected by name. -/
theorem test_short_word_is_padded : decodeTableWord 8 0x15 = some (.jmpNotEq 0#16 0#16) := by decide
theorem test_truncated_list_rejected : decode [0x15#8, 0x00#8, 0x03#8, 0x00#8] = .error (.truncated 0x15#8) := by rfl
theorem test_empty_list_rejected : decode [] = .error .empty := by rfl

/-- The register byte examples of spec/95_test_vectors.md section 2.1. -/
theorem test_register_bytes :
    [0x00#8, 0x0B#8, 0x0C#8, 0x0D#8, 0x0E#8, 0x17#8, 0x18#8, 0x7F#8, 0x80#8, 0xFB#8, 0xFC#8, 0xFF#8].map regOfByte =
      [.ip, .fp, .ip, .acc, .r1, .fp, .ip, .r6, .r7, .fp, .ip, .r2] := by decide

/-- `withFetchWord` places what the next step runs. -/
theorem test_withFetchWord_runs :
    shows (step (State.reset.withFetchWord 32 0x10123402)) [(.ip, 0x0004#16), (.r1, 0x1234#16)] 0#16 [] = true := by decide
theorem test_withFetchWord_runs_five_bytes :
    shows (step (State.reset.withFetchWord 40 0x1500030104)) [(.ip, 0x0104#16)] 0#16 [] = true := by decide

/-! ### Smoke tests of the checks: each refuses an ill-formed term -/

theorem smoke_instrBytes_empty : instrBytesOk [] = false := by decide
theorem smoke_instrBytes_short : instrBytesOk [0x5E#8, 0x01#8] = false := by decide
theorem smoke_instrBytes_long : instrBytesOk [0x60#8, 0x00#8] = false := by decide
theorem smoke_instrBytes_exact : instrBytesOk [0x5E#8, 0x01#8, 0x00#8] = true := by decide
theorem smoke_canonical_alias : canonicalBytesOk [0x18#8, 0x0E#8] = false := by decide
theorem smoke_canonical_truncated : canonicalBytesOk [0x18#8] = false := by decide
theorem smoke_canonical_exact : canonicalBytesOk [0x18#8, 0x02#8] = true := by decide
theorem smoke_memSize_one : memSizeOk 1 = false := by decide
theorem smoke_memSize_above : memSizeOk 65537 = false := by decide
theorem smoke_memSize_bounds : memSizeOk 2 = true ∧ memSizeOk 65536 = true := by decide
theorem smoke_block_past_end : blockFits 256 255 2 = false := by decide
theorem smoke_block_to_end : blockFits 256 254 2 = true := by decide

/-- The canonical form refuses a listed 0, a repeated address, and an address outside memory. -/
theorem smoke_memory_wf :
    (Memory.mk 256 [(1, 0#8)]).wf = false ∧ (Memory.mk 256 [(1, 1#8), (1, 2#8)]).wf = false ∧
      (Memory.mk 256 [(256, 1#8)]).wf = false ∧ (Memory.mk 256 [(1, 1#8), (255, 2#8)]).wf = true := by decide

/-! ### The host interface -/

theorem test_hex_of_word : hexOfWord 0x0BAD#16 = "0BAD" := by decide

theorem test_register_dump_names :
    (registerDump State.reset).map Prod.fst = ["ip", "acc", "r1", "r2", "r3", "r4", "r5", "r6", "r7", "r8", "sp", "fp"] :=
  by decide

/-- U2: a block that does not fit is refused, and `show` reads 0 outside memory. -/
theorem test_show_outside : hostShow 254 4 (start 256 [] [(254, [0x12#8, 0x34#8])]) = [0x12#8, 0x34#8, 0#8, 0#8] := by decide

/-! ### For every statement with hypotheses, a state and operands that meet them: `witness_<statement>` -/

/-- Both ends of the range of register bytes, for every residue. -/
theorem witness_RegisterByteSelectsItsResidueModuloTwelve :
    ((List.range 12).all fun k =>
      [k, k + 12, k + 240].all fun n => decide (n < 256) && (BitVec.ofNat 8 n).toNat % 12 == k) = true ∧
    (0xFC#8).toNat % 12 = 0 ∧ (0xFF#8).toNat % 12 = 3 := by decide

/-- A register byte that is not canonical, and beside it address bytes that are themselves above 11. -/
theorem witness_DecodedBytesAreTheEncodingUpToRegisterBytes :
    decode [0x12#8, 0x0E#8, 0x0D#8, 0xFF#8, 0xAA#8] = .ok (.movRegMem .r1 0x0DFF#16, [0xAA#8]) ∧
      registerPlaces 0x12#8 = [1] ∧ registerPlaces 0x17#8 = [] := ⟨rfl, rfl, rfl⟩

/-- One opcode byte of each length, and the last of the no-ops. -/
theorem witness_LengthIsAFunctionOfTheOpcodeByte :
    decode [0x13#8, 0x01#8, 0x00#8, 0x03#8] = .ok (.movMemReg 0x0100#16 .r2, []) ∧
    decode [0x5E#8, 0x01#8, 0x00#8] = .ok (.calLit 0x0100#16, []) ∧
    decode [0x15#8, 0x00#8, 0x03#8, 0x00#8, 0x04#8, 0x00#8] = .ok (.jmpNotEq 0x0003#16 0x0004#16, [0x00#8]) ∧
    decode [0x5F#8, 0x0A#8] = .ok (.calReg .sp, []) ∧ decode [0x60#8] = .ok (.ret, []) ∧
    decode [0xFF#8] = .ok (.unassigned80ToFF 0x7F#7, []) := ⟨rfl, rfl, rfl, rfl, rfl, rfl⟩

theorem witness_WordFetchIsOneReadEvenAtTheTopAddress :
    (start 65536 [(.ip, 0xFFFF#16)] [(0xFFFF, [0xAB#8])]).Inv ∧
      (start 65536 [(.ip, 0xFFFF#16)] [(0xFFFF, [0xAB#8])]).get .ip = 0xFFFF#16 := ⟨by rfl, by rfl⟩

theorem witness_StepRunsTheDecodedInstruction :
    decode (fetchInstr (start 256 [] [(0, [0x11#8, 0x02#8, 0x05#8])])).1 = .ok (.movRegReg .r1 .r4, []) := by rfl

/-- An instruction that ends with the last byte of the address space. -/
theorem witness_EncodingInMemoryIsWhatTheStepRuns :
    let s := start 65536 [(.ip, 0xFFFC#16)] [(0xFFFC, [0x10#8, 0x12#8, 0x34#8, 0x02#8])]
    let i : Instr := .movLitReg 0x1234#16 .r1
    (s.get .ip).toNat + i.length ≤ 65536 ∧
      ∀ (k : Nat) (b : Byte), (encode i)[k]? = some b → s.mem.byteAt ((s.get .ip).toNat + k) = b := by
  refine ⟨by decide, fun k b h => ?_⟩
  match k, h with
  | 0, h => exact Option.some.inj h
  | 1, h => exact Option.some.inj h
  | 2, h => exact Option.some.inj h
  | 3, h => exact Option.some.inj h

/-- The first address past memory, and the last address there is. -/
theorem witness_StepOutsideMemoryIsANoOp :
    (start 256 [(.ip, 0x0100#16)] []).mem.size ≤ ((start 256 [(.ip, 0x0100#16)] []).get .ip).toNat ∧
      (start 2 [(.ip, 0xFFFF#16)] []).mem.size ≤ ((start 2 [(.ip, 0xFFFF#16)] []).get .ip).toNat := by decide

theorem witness_ZeroedMemoryRunsAsNoOps : ∀ a, (start 65536 [(.ip, 0xFFFF#16)] []).mem.byteAt a = 0#8 :=
  fun a => ite_self (c := a < 65536) 0#8

/-- For every statement that says `StepsAs bytes i`: memory in which the fetch unit reads `bytes`, the register bytes
at and above 12 among them. -/
theorem witness_StepsAs :
    ([[0x10#8, 0x12#8, 0x34#8, 0xFF#8], [0x11#8, 0x02#8, 0x05#8], [0x12#8, 0x0C#8, 0x01#8, 0x00#8],
      [0x13#8, 0x01#8, 0x00#8, 0x03#8], [0x14#8, 0x0E#8, 0xFF#8], [0x15#8, 0x00#8, 0x03#8, 0x00#8, 0x04#8],
      [0x17#8, 0x12#8, 0x34#8], [0x18#8, 0x0A#8], [0x1A#8, 0x02#8], [0x5E#8, 0x01#8, 0x00#8], [0x5F#8, 0x0A#8],
      [0x60#8]].all fun bytes => (fetchInstr (start 256 [] [(0, bytes)])).1 == bytes) = true := by decide

/-- The last address at which a store is in range, the first at which it is not, and the last address there is. -/
theorem witness_MovRegMemStoresBigEndian :
    (0x00FE#16).toNat + 1 < (start 256 [] []).mem.size ∧ (start 256 [] []).mem.size ≤ (0x00FF#16).toNat + 1 ∧
      (start 65536 [] []).mem.size ≤ (0xFFFF#16).toNat + 1 := by decide

/-- A load outside memory, a load of the last byte, and a store with a change of registers before the load. -/
theorem witness_MovMemRegLoadsBigEndian :
    (start 256 [] []).mem.size ≤ (0x0100#16).toNat ∧ (start 256 [] []).mem.size = (0x00FF#16).toNat + 1 ∧
      ∃ t u, exec (.movRegMem .r1 0x00FE#16) (start 256 [(.r1, 0x1234#16)] []) = .next t ∧ u = t.set .r1 0x5555#16 ∧
        u.mem = t.mem :=
  ⟨by decide, by decide, _, _, rfl, rfl, rfl⟩

theorem witness_StoreOverTheNextInstructionIsFetched :
    ∃ t, exec (.movRegMem .r1 ((start 256 [(.ip, 0x0004#16), (.r1, 0x6016#16)] []).get .ip))
      (start 256 [(.ip, 0x0004#16), (.r1, 0x6016#16)] []) = .next t := ⟨_, rfl⟩

theorem witness_JmpNotEqJumpsExactlyOnDifference :
    0xFFFF#16 ≠ (start 256 [(.acc, 0x0000#16)] []).get .acc ∧ 0x0000#16 = (start 256 [(.acc, 0x0000#16)] []).get .acc :=
  by decide

/-- `sp` at the last address that is in range and at the first that is not. -/
theorem witness_PshLitPushesItsLiteral :
    ((start 256 [(.sp, 0x00FE#16)] []).get .sp).toNat + 1 < (start 256 [(.sp, 0x00FE#16)] []).mem.size ∧
      (start 256 [(.sp, 0x00FF#16)] []).mem.size ≤ ((start 256 [(.sp, 0x00FF#16)] []).get .sp).toNat + 1 := by decide

/-- As for PSH_LIT; and a push, a change of another register, and then the pop. -/
theorem witness_PshRegPushesTheRegister :
    ((start 256 [] []).get .sp).toNat + 1 < (start 256 [] []).mem.size ∧
      (start 256 [(.sp, 0x00FF#16)] []).mem.size ≤ ((start 256 [(.sp, 0x00FF#16)] []).get .sp).toNat + 1 ∧
      (Reg.r2 ≠ .sp) ∧
      ∃ t u, exec (.pshReg .r1) (start 256 [(.r1, 0x1234#16)] []) = .next t ∧ u = t.set .r1 0#16 ∧ u.mem = t.mem ∧
        u.sfs = t.sfs ∧ u.get .sp = t.get .sp :=
  ⟨by decide, by decide, by decide, _, _, rfl, rfl, rfl, rfl, rfl⟩

theorem witness_PopLoadsTheWordAboveSp : Reg.r1 ≠ Reg.sp := by decide

/-- Every slot of a frame lies inside memory, from one computation. -/
theorem slots_in_range {sp : Word} {s : State} (h : (frameSlots sp).all (fun w => inRange s w) = true) :
    ∀ w ∈ frameSlots sp, w.toNat + 1 < s.mem.size :=
  fun w hw => of_decide_eq_true (List.all_eq_true.mp h w hw)

/-- A slot of a frame that lies outside memory, from one computation. -/
theorem slot_out {sp w : Word} {s : State} (h : (frameSlots sp).find? (fun a => !inRange s a) = some w) :
    ∃ w ∈ frameSlots sp, s.mem.size ≤ w.toNat + 1 := by
  refine ⟨w, List.mem_of_find?_eq_some h, ?_⟩
  have hw := List.find?_some h
  simpa [inRange] using hw

/-- The smallest `sp` from which a call's ten stores reach address 0, `sp` at the last word of memory, and the first and
the last of the ten as the one that is out of range. -/
theorem witness_CalLitBuildsTheFrameAndJumps :
    (∀ w ∈ frameSlots ((start 256 [(.sp, 0x0012#16)] []).get .sp),
      w.toNat + 1 < (start 256 [(.sp, 0x0012#16)] []).mem.size) ∧
    (∀ w ∈ frameSlots ((start 256 [] []).get .sp), w.toNat + 1 < (start 256 [] []).mem.size) ∧
    (∃ w ∈ frameSlots ((start 256 [(.sp, 0x00FF#16)] []).get .sp),
      (start 256 [(.sp, 0x00FF#16)] []).mem.size ≤ w.toNat + 1) ∧
    ∃ w ∈ frameSlots ((start 256 [(.sp, 0x0010#16)] []).get .sp),
      (start 256 [(.sp, 0x0010#16)] []).mem.size ≤ w.toNat + 1 :=
  ⟨slots_in_range (by decide), slots_in_range (by decide), slot_out (w := 0x00FF#16) rfl,
    slot_out (w := 0xFFFE#16) rfl⟩

theorem witness_CalRegBuildsTheFrameAndJumps :
    (∀ w ∈ frameSlots ((start 65536 [(.sp, 0x0010#16)] []).get .sp),
      w.toNat + 1 < (start 65536 [(.sp, 0x0010#16)] []).mem.size) ∧
    ∃ w ∈ frameSlots ((start 65536 [(.sp, 0x0011#16)] []).get .sp),
      (start 65536 [(.sp, 0x0011#16)] []).mem.size ≤ w.toNat + 1 :=
  ⟨slots_in_range (by decide), slot_out (w := 0xFFFF#16) rfl⟩

theorem witness_RetWithoutAFrameReadsZeros : 2 ≤ 2 ∧ 2 < 65536 ∧ 2 ≤ 65535 ∧ 65535 < 65536 := by decide

/-- A call of each form, and the very next instruction is the return. -/
theorem witness_MatchedReturnRestoresTheCaller_calReg :
    ∃ t u, exec (.calReg .sp) (start 256 [(.r1, 0x0101#16)] []) = .next t ∧ u = t.set .r1 0x5555#16 ∧
      u.get .fp = t.get .fp ∧ u.sfs = t.sfs ∧
      ∀ k : Nat, 1 ≤ k → k ≤ 11 → u.mem.read16 (t.get .fp + BitVec.ofNat 16 (2 * k)).toNat =
        t.mem.read16 (t.get .fp + BitVec.ofNat 16 (2 * k)).toNat :=
  ⟨_, _, rfl, rfl, rfl, rfl, fun _ _ _ => rfl⟩

theorem witness_MatchedReturnRestoresTheCaller :
    ∃ t u, exec (.calLit 0x0040#16) (start 256 [(.r1, 0x0101#16)] []) = .next t ∧ u = t.set .r1 0x5555#16 ∧
      u.get .fp = t.get .fp ∧ u.sfs = t.sfs ∧
      ∀ k : Nat, 1 ≤ k → k ≤ 11 → u.mem.read16 (t.get .fp + BitVec.ofNat 16 (2 * k)).toNat =
        t.mem.read16 (t.get .fp + BitVec.ofNat 16 (2 * k)).toNat :=
  ⟨_, _, rfl, rfl, rfl, rfl, fun _ _ _ => rfl⟩

/-- Both ends of each range of unassigned opcode bytes, the one byte ranges, and a state with such a byte at `ip`. -/
theorem witness_UnassignedOpcodesAreOneByteNoOps :
    0x00#8 ≤ 0x0F#8 ∧ 0x0F#8 ≤ 0x0F#8 ∧ (0x1B#8 ≤ 0x1B#8 ∧ 0x1B#8 ≤ 0x5D#8) ∧ (0x1B#8 ≤ 0x5D#8 ∧ 0x5D#8 ≤ 0x5D#8) ∧
      0x61#8 ≤ 0x61#8 ∧ 0x61#8 ≤ 0xFF#8 ∧
      (start 256 [] [(0, [0xFF#8])]).mem.byteAt ((start 256 [] [(0, [0xFF#8])]).get .ip).toNat = 0xFF#8 := by decide

/-- A step that pops into `acc`: the hypotheses of every statement about what an instruction that completes changes. -/
theorem witness_EveryInstructionKeepsWhatItDoesNotWrite :
    ∃ t, exec (.pop .acc) (start 256 [] [(0, [0x1A#8, 0x01#8])]) = .next t := ⟨_, rfl⟩

theorem witness_SfsCountsPushesAndPopsOnly :
    (∃ t, exec (.calReg .r1) (start 256 [] []) = .next t) ∧ ∃ t, exec .ret (start 256 [] []) = .next t :=
  ⟨⟨_, rfl⟩, ⟨_, rfl⟩⟩

theorem witness_SpPlusSfsIsKept :
    (∃ t, exec (.pop .acc) (start 256 [] []) = .next t) ∧ Instr.pop .acc ≠ .ret ∧
      destination (.pop .acc) ≠ some .sp := ⟨⟨_, rfl⟩, by decide, by decide⟩

theorem witness_IpChangesOnlyByControlTransfers :
    ∃ t, exec (.calLit 0x0040#16) (start 256 [] []) = .next t ∧ t.get .ip ≠ (start 256 [] []).get .ip :=
  ⟨_, rfl, by decide⟩

theorem witness_AccChangesOnlyByAddOrAsDestination :
    ∃ t, exec (.addRegReg .r1 .r1) (start 256 [(.r1, 0x8001#16)] []) = .next t ∧
      t.get .acc ≠ (start 256 [(.r1, 0x8001#16)] []).get .acc := ⟨_, rfl, by decide⟩

theorem witness_EveryStepKeepsTheInvariant :
    (start 256 [] [(0, [0x18#8, 0x0A#8])]).Inv ∧ ∃ t, step (start 256 [] [(0, [0x18#8, 0x0A#8])]) = .next t :=
  ⟨by rfl, _, rfl⟩

theorem witness_InvariantHoldsAfterReset : 2 ≤ 2 ∧ 2 ≤ 65536 ∧ 2 ≤ 65536 ∧ 65536 ≤ 65536 := by decide

/-- A register write, a block load and a step, after reset. -/
theorem witness_EveryReachedStateKeepsTheInvariantAndSize :
    ∃ t, Reaches (State.resetOfSize 256) t ∧ t.get .r1 = 0x1234#16 :=
  ⟨_, .tail _ _ _ .trigger (.tail _ _ _ (.setBlock 0 [0x11#8, 0x0B#8, 0x02#8])
    (.tail _ _ _ (.setReg .fp 0x1234#16) (.refl _) rfl) rfl) rfl, by decide⟩

/-- The ends of the permitted sizes, and the sizes next to them. -/
theorem witness_CreationGivesTheResetValues :
    (2 ≤ 2 ∧ 2 ≤ 65536) ∧ (2 ≤ 65536 ∧ 65536 ≤ 65536) ∧ (1 < 2 ∨ 65536 < 1) ∧ (65537 < 2 ∨ 65536 < 65537) ∧
      Reg.ip ≠ .sp ∧ Reg.ip ≠ .fp := by decide

theorem witness_ResetKeepsOnlyTheMemorySize :
    (start 256 [(.r1, 1#16)] []).mem.size = (start 256 [] [(3, [7#8])]).mem.size := by decide

theorem witness_HostNamesReachTheTwelveRegisters : ∀ r, "pc" ≠ nameOfReg r := by intro r; cases r <;> decide

/-- The last address in range, for one byte and for two. -/
theorem witness_HostMemoryWriteChangesItsBytesOnly :
    255 < (start 256 [] []).mem.size ∧ 254 + 1 < (start 256 [] []).mem.size := by decide

/-- The first address out of range, for one byte, for two and for a block. -/
theorem witness_HostWriteOutsideMemoryIsRefused :
    (start 256 [] []).mem.size ≤ 256 ∧ (start 256 [] []).mem.size ≤ 255 + 1 ∧
      (start 256 [] []).mem.size < 254 + [1#8, 2#8, 3#8].length := by decide

theorem witness_WordReadIsBigEndian : 255 + 1 = (start 256 [] []).mem.size := by decide

theorem witness_ReadOutsideMemoryGivesZero : (start 256 [] []).mem.size ≤ 256 := by decide

/-- A block that ends with memory; a byte before it and the byte after it; a block one byte past the end; the last byte of
a window. -/
theorem witness_BlockLoadIsWhatShowReads :
    254 + [1#8, 2#8].length ≤ (start 256 [] []).mem.size ∧ (253 < 254 ∨ 254 + [1#8, 2#8].length ≤ 253) ∧
      (256 < 254 ∨ 254 + [1#8, 2#8].length ≤ 256) ∧ (start 256 [] []).mem.size < 255 + [1#8, 2#8].length ∧ 3 < 4 := by
  decide

/-- A command of each kind that answers a next state, the writes of memory ending with it. -/
theorem witness_EveryHostCommandKeepsTheInvariant :
    let s := start 256 [] [(0, [0x18#8, 0x0A#8])]
    s.Inv ∧ (∃ t, hostApply .trigger s = .next t) ∧
      (∃ t, hostApply (.execute 0x60#8) s = .next t) ∧
      (∃ t, hostApply (.setReg .sp 7#16) s = .next t) ∧
      (∃ t, hostApply (.setNamed "r1" 1#16) s = .next t) ∧
      (∃ t, hostApply (.set8 255 1#8) s = .next t) ∧
      (∃ t, hostApply (.set16 254 0x1234#16) s = .next t) ∧
      (∃ t, hostApply (.setBlock 254 [1#8, 0#8]) s = .next t) ∧
      (∃ t, hostApply .reset s = .next t) :=
  ⟨by rfl, ⟨_, rfl⟩, ⟨_, rfl⟩, ⟨_, rfl⟩, ⟨_, rfl⟩, ⟨_, rfl⟩, ⟨_, rfl⟩, ⟨_, rfl⟩, ⟨_, rfl⟩⟩

end Sys2Proof.Tests
end

/-! SUPPORT. The invariant of the memory (spec/00_scope.md rule R7, spec/10_state.md rule R35): what a meaning, a step and
a host command can do to memory, each said once, and that all of them keep its size and its canonical form. -/

namespace Sys2Proof.Machine

/-! ### What each operation can do to memory -/

@[simp] theorem popState_mem (s : State) : (popState s).mem = s.mem := by
  obtain ⟨-, -, -, -, -, hmem⟩ := popState_spec s
  exact hmem

/-- The outcome of a storing instruction is a next state only where the store itself answers that state. -/
theorem finishStore_eq_next {i : Instr} {s t : State} {r : Except Word State} (h : finishStore i s r = .next t) :
    r = .ok t := by
  cases r with
  | ok u => cases h; rfl
  | error a => cases h

/-- All that a call's entry can do when it answers a state: `PushState`, then the jump. -/
theorem callTo_eq_ok {target : Word} {s t : State} (h : callTo target s = .ok t) :
    ∃ u, pushState s = .ok u ∧ t = u.set .ip target := by
  unfold callTo at h
  split at h
  · rename_i u hu
    cases h
    exact ⟨u, hu, rfl⟩
  · cases h

theorem mem_eq_of_next_eq {s t u : State} (h : (.next u : Host.Outcome State Fault Refusal) = .next t)
    (hu : u.mem = s.mem) : t.mem = s.mem := by
  cases h
  exact hu

/-- All the ways in which a meaning that answers a state can reach memory: not at all, by one store, by one push, or by a
call. -/
theorem exec_mem_cases {i : Instr} {s t : State} (h : exec i s = .next t) :
    t.mem = s.mem ∨ (∃ a v, store16 a v s = .ok t) ∨ (∃ v, push v s = .ok t) ∨ ∃ target, callTo target s = .ok t := by
  cases i with
  | movRegMem src address => exact .inr (.inl ⟨_, _, finishStore_eq_next h⟩)
  | pshLit literal => exact .inr (.inr (.inl ⟨_, finishStore_eq_next h⟩))
  | pshReg src => exact .inr (.inr (.inl ⟨_, finishStore_eq_next h⟩))
  | calLit address => exact .inr (.inr (.inr ⟨_, finishStore_eq_next h⟩))
  | calReg src => exact .inr (.inr (.inr ⟨_, finishStore_eq_next h⟩))
  | movLitReg literal dst => exact .inl (mem_eq_of_next_eq h (State.set_mem ..))
  | movRegReg src dst => exact .inl (mem_eq_of_next_eq h (State.set_mem ..))
  | movMemReg address dst => exact .inl (mem_eq_of_next_eq h (State.set_mem ..))
  | addRegReg reg1 reg2 => exact .inl (mem_eq_of_next_eq h (State.set_mem ..))
  | jmpNotEq value address =>
    exact .inl (mem_eq_of_next_eq h (if_both (P := fun u : State => u.mem = s.mem) (State.set_mem ..) rfl))
  | pop dst => exact .inl (mem_eq_of_next_eq h (popInto_mem dst s))
  | ret => exact .inl (mem_eq_of_next_eq h (popState_mem s))
  -- The sixteen rows of unassigned opcodes: the identity handler (spec/46_unassigned_opcodes.md rule R200).
  | _ => exact .inl (mem_eq_of_next_eq h rfl)

/-- The bytes fetched answer a next state only as the meaning of the instruction they decode to. -/
theorem runBytes_eq_next {bytes : List Byte} {s t : State} (h : runBytes bytes s = .next t) :
    ∃ i rest, decode bytes = .ok (i, rest) ∧ exec i s = .next t := by
  unfold runBytes at h
  split at h
  · rename_i i rest hd
    exact ⟨i, rest, hd, h⟩
  · cases h

/-- A host write answers a next state only with the memory the write gives. -/
theorem hostWrite_eq_next {a len : Nat} {s t : State} {o : Option Memory} (h : hostWrite a len s o = .next t) :
    ∃ m, o = some m ∧ t = s.setMem m := by
  cases o with
  | none => cases h
  | some m => cases h; exact ⟨m, rfl, rfl⟩

/-- A register write by name answers a next state only as the write of one register. -/
theorem hostSetNamed_eq_next {name : String} {v : Word} {s t : State} (h : hostSetNamed name v s = .next t) :
    ∃ r, regOfName name = some r ∧ t = s.set r v := by
  unfold hostSetNamed at h
  split at h
  · rename_i r hr
    cases h
    exact ⟨r, hr, rfl⟩
  · cases h

/-! ### The invariant, kept from one state to the next -/

/-- `t` has memory of the size of `s`, and meets the invariant where `s` does. -/
def InvKept (s t : State) : Prop := t.mem.size = s.mem.size ∧ (s.Inv → t.Inv)

namespace InvKept

theorem of_mem_eq {s t : State} (h : t.mem = s.mem) : InvKept s t :=
  ⟨by rw [h], fun hs => by rwa [State.Inv, h]⟩

theorem trans {s t u : State} (hst : InvKept s t) (htu : InvKept t u) : InvKept s u :=
  ⟨htu.1.trans hst.1, fun hs => htu.2 (hst.2 hs)⟩

theorem of_store16 {a v : Word} {s t : State} (h : store16 a v s = .ok t) : InvKept s t := by
  obtain ⟨-, -, -, hsize, -, hwf⟩ := store16_eq_ok h
  exact ⟨hsize, hwf⟩

theorem of_push {v : Word} {s t : State} (h : push v s = .ok t) : InvKept s t := by
  obtain ⟨-, -, -, -, hsize, -, hwf⟩ := push_eq_ok h
  exact ⟨hsize, hwf⟩

theorem of_callTo {target : Word} {s t : State} (h : callTo target s = .ok t) : InvKept s t := by
  obtain ⟨u, hu, rfl⟩ := callTo_eq_ok h
  obtain ⟨-, -, -, -, hsize, -, -, hwf⟩ := pushState_eq_ok hu
  exact trans ⟨hsize, hwf⟩ (of_mem_eq (State.set_mem ..))

theorem of_exec {i : Instr} {s t : State} (h : exec i s = .next t) : InvKept s t := by
  obtain hmem | ⟨a, v, hstore⟩ | ⟨v, hpush⟩ | ⟨target, hcall⟩ := exec_mem_cases h
  · exact of_mem_eq hmem
  · exact of_store16 hstore
  · exact of_push hpush
  · exact of_callTo hcall

/-- `execute` fetches, which moves `ip` only, and runs one meaning. -/
theorem of_execute {op : Byte} {s t : State} (h : execute op s = .next t) : InvKept s t := by
  obtain ⟨i, -, -, hi⟩ := runBytes_eq_next h
  have hfetch : (fetchOperands (operandKinds op) s).2.mem = s.mem := by rw [fetchOperands_state, State.set_mem]
  exact trans (of_mem_eq hfetch) (of_exec hi)

theorem of_step {s t : State} (h : step s = .next t) : InvKept s t :=
  trans (of_mem_eq (by rw [fetch8_state, State.set_mem])) (of_execute h)

theorem of_hostSet8 {a : Nat} {b : Byte} {s t : State} (h : hostSet8 a b s = .next t) : InvKept s t := by
  obtain ⟨m, hm, rfl⟩ := hostWrite_eq_next h
  obtain ⟨-, hsize, -, hwf⟩ := Memory.write8_eq_some hm
  exact ⟨hsize, hwf⟩

theorem of_hostSet16 {a : Nat} {v : Word} {s t : State} (h : hostSet16 a v s = .next t) : InvKept s t := by
  obtain ⟨m, hm, rfl⟩ := hostWrite_eq_next h
  obtain ⟨-, hsize, -, hwf⟩ := Memory.write16_eq_some hm
  exact ⟨hsize, hwf⟩

theorem of_hostSetBlock {a : Nat} {bs : List Byte} {s t : State} (h : hostSetBlock a bs s = .next t) :
    InvKept s t := by
  obtain ⟨m, hm, rfl⟩ := hostWrite_eq_next h
  refine ⟨?_, Memory.wf_setBlock hm⟩
  obtain ⟨-, rfl⟩ := Memory.setBlock_eq_some hm
  exact Memory.putBytes_size ..

end InvKept

/-! ### Reset -/

theorem memSizeOk_iff {n : Nat} : memSizeOk n = true ↔ 2 ≤ n ∧ n ≤ 65536 := by
  rw [memSizeOk, Bool.and_eq_true, decide_eq_true_eq, decide_eq_true_eq]
  rfl

/-- A state that reset makes meets the invariant exactly where its size is permitted: memory that lists no byte is in
canonical form. -/
theorem resetOfSize_inv_iff {size : Nat} : (State.resetOfSize size).Inv ↔ memSizeOk size = true := by
  simp [State.Inv, State.resetOfSize, Memory.wf, cellsOk]

theorem State.Inv.size_permitted {s : State} (h : s.Inv) : memSizeOk s.mem.size = true := by
  rw [State.Inv, Memory.wf, Bool.and_eq_true] at h
  exact h.1

theorem InvKept.of_reset (s : State) : InvKept s (State.resetOfSize s.mem.size) :=
  ⟨rfl, fun hs => resetOfSize_inv_iff.mpr hs.size_permitted⟩

/-- Every command of the host that answers a next state keeps the invariant and the size. -/
theorem InvKept.of_hostApply {c : HostCommand} {s t : State} (h : hostApply c s = .next t) : InvKept s t := by
  cases c with
  | trigger => exact of_step h
  | execute op => exact of_execute h
  | setReg r v => exact of_mem_eq (mem_eq_of_next_eq h (State.set_mem ..))
  | setNamed name v =>
    obtain ⟨r, -, rfl⟩ := hostSetNamed_eq_next h
    exact of_mem_eq (State.set_mem ..)
  | set8 a b => exact of_hostSet8 h
  | set16 a v => exact of_hostSet16 h
  | setBlock a bs => exact of_hostSetBlock h
  | reset =>
    cases h
    exact of_reset s

/-! ### The statements -/

/-- Settles O39: a step is a fetch, which leaves memory alone, and one meaning, which reaches memory by the stores of
`exec_mem_cases` only. -/
theorem everyStepKeepsTheInvariant : Obligations.EveryStepKeepsTheInvariant := by
  intro s t hs h
  obtain ⟨hsize, hinv⟩ := InvKept.of_step h
  exact ⟨hinv hs, hsize⟩

/-- Settles O51, command by command in `InvKept.of_hostApply`. -/
theorem everyHostCommandKeepsTheInvariant : Obligations.EveryHostCommandKeepsTheInvariant := by
  intro c s t hs h
  obtain ⟨hsize, hinv⟩ := InvKept.of_hostApply h
  exact ⟨hinv hs, hsize⟩

/-- Settles O40: the size is permitted, and memory after reset lists no byte. -/
theorem invariantHoldsAfterReset : Obligations.InvariantHoldsAfterReset := by
  intro size hmin hmax
  exact resetOfSize_inv_iff.mpr (memSizeOk_iff.mpr ⟨hmin, hmax⟩)

end Sys2Proof.Machine

/-! SUPPORT. The statements about the state as a whole (spec/10_state.md): what a meaning leaves alone and how it moves
`sp` and `sfs`, what every reached state keeps, the state after creation, and the host's register accessors. -/

namespace Sys2Proof.Machine

/-! ### The effect of an operation: what it may touch, and how it moves `sfs` -/

/-- `t` reads as `s` in every register outside `written` and in every byte outside the words at `stores`, the memory has
the same size, and `sfs` is higher by `change`. -/
structure Effect (written : List Reg) (stores : List Word) (change : Word) (s t : State) : Prop where
  regs : SameRegsBut written s t
  mem : SameMemoryBut stores s t
  sfs : t.sfs = s.sfs + change

theorem SameMemoryBut.of_mem_eq {s t : State} (h : t.mem = s.mem) (stores : List Word) : SameMemoryBut stores s t :=
  ⟨by rw [h], fun a _ => by rw [h]⟩

/-- The ten words of a call's frame are at the slots of ten pushes. -/
theorem frameSlots_eq_map_slot (sp : Word) : frameSlots sp = (List.range 10).map (slot sp) := by
  simp [frameSlots, slot, List.range_succ]

theorem slot_mem_frameSlots (sp : Word) {k : Nat} (hk : k < 10) : slot sp k ∈ frameSlots sp := by
  rw [frameSlots_eq_map_slot]
  exact List.mem_map_of_mem (List.mem_range.mpr hk)

/-- A call's entry moves `sp` and `sfs` as ten pushes do (spec/45_call_return.md rule R175). -/
theorem callTo_sp_sfs {target : Word} {s t : State} (h : callTo target s = .ok t) :
    t.get .sp = s.get .sp - 20#16 ∧ t.sfs = s.sfs + 20#16 := by
  obtain ⟨u, hu, rfl⟩ := callTo_eq_ok h
  obtain ⟨hsp, -, -, hsfs, -⟩ := pushState_eq_ok hu
  exact ⟨by rw [State.get_set_of_ne _ _ (by decide), hsp, slot], by rw [State.set_sfs, hsfs]⟩

namespace Effect

theorem refl (written : List Reg) (s : State) : Effect written [] 0#16 s s :=
  ⟨fun _ _ => rfl, .of_mem_eq rfl [], (BitVec.add_zero _).symm⟩

theorem of_set (r : Reg) (v : Word) (s : State) : Effect [r] [] 0#16 s (s.set r v) where
  regs q hq := State.get_set_of_ne s v (List.ne_of_not_mem_cons hq)
  mem := .of_mem_eq (State.set_mem ..) []
  sfs := by rw [State.set_sfs, BitVec.add_zero]

theorem of_store16 {a v : Word} {s t : State} (h : store16 a v s = .ok t) : Effect [] [a] 0#16 s t := by
  obtain ⟨-, hregs, hsfs, hsize, hbytes, -⟩ := store16_eq_ok h
  refine ⟨fun r _ => hregs r, ⟨hsize, fun c hc => ?_⟩, by rw [hsfs, BitVec.add_zero]⟩
  obtain ⟨hhigh, hlow⟩ := hc a (List.mem_singleton_self a)
  rw [hbytes, if_neg hhigh, if_neg hlow]

theorem of_push {v : Word} {s t : State} (h : push v s = .ok t) : Effect [.sp] [s.get .sp] 2#16 s t := by
  obtain ⟨-, -, hregs, hsfs, hsize, hbytes, -⟩ := push_eq_ok h
  refine ⟨fun r hr => hregs r (List.ne_of_not_mem_cons hr), ⟨hsize, fun c hc => ?_⟩, hsfs⟩
  obtain ⟨hhigh, hlow⟩ := hc _ (List.mem_singleton_self _)
  rw [hbytes, if_neg hhigh, if_neg hlow]

theorem of_popInto (r : Reg) (s : State) : Effect [.sp, r] [] (-2#16) s (popInto r s) where
  regs q hq := by
    simp only [List.mem_cons, List.not_mem_nil, or_false, not_or] at hq
    rw [popInto_get, if_neg hq.2, if_neg hq.1]
  mem := .of_mem_eq (popInto_mem r s) []
  sfs := by rw [popInto_sfs, BitVec.sub_eq_add_neg]

theorem of_callTo {target : Word} {s t : State} (h : callTo target s = .ok t) :
    Effect [.sp, .fp, .ip] (frameSlots (s.get .sp)) 20#16 s t := by
  obtain ⟨-, hsfs⟩ := callTo_sp_sfs h
  obtain ⟨u, hu, rfl⟩ := callTo_eq_ok h
  obtain ⟨-, -, hregs, -, hsize, -, hbytes, -⟩ := pushState_eq_ok hu
  refine ⟨fun r hr => ?_, ⟨by rw [State.set_mem, hsize], fun c hc => ?_⟩, hsfs⟩
  · simp only [List.mem_cons, List.not_mem_nil, or_false, not_or] at hr
    obtain ⟨hsp, hfp, hip⟩ := hr
    rw [State.get_set_of_ne _ _ hip, hregs r hsp hfp]
  · rw [State.set_mem]
    exact hbytes c fun k hk => hc _ (slot_mem_frameSlots _ hk)

/-- A return writes every register but `acc`. -/
theorem of_popState (s : State) : Effect (writtenRegs .ret) [] (sfsChange .ret s) s (popState s) := by
  obtain ⟨-, -, -, hacc, hsfs, hmem⟩ := popState_spec s
  refine ⟨fun r hr => ?_, .of_mem_eq hmem [], ?_⟩
  · cases r with
    | acc => exact hacc
    | _ => exact absurd (by decide) hr
  · rw [hsfs, BitVec.sub_sub, BitVec.sub_eq_add_neg]
    rfl

/-- A meaning touches only the registers it writes and the words it stores to, and moves `sfs` by its own change. -/
theorem of_exec {i : Instr} {s t : State} (h : exec i s = .next t) :
    Effect (writtenRegs i) (storeAddresses i s) (sfsChange i s) s t := by
  cases i with
  | movRegMem src address => exact of_store16 (finishStore_eq_next h)
  | pshLit literal => exact of_push (finishStore_eq_next h)
  | pshReg src => exact of_push (finishStore_eq_next h)
  | calLit address => exact of_callTo (finishStore_eq_next h)
  | calReg src => exact of_callTo (finishStore_eq_next h)
  | movLitReg literal dst => cases h; exact of_set ..
  | movRegReg src dst => cases h; exact of_set ..
  | movMemReg address dst => cases h; exact of_set ..
  | addRegReg reg1 reg2 => cases h; exact of_set ..
  | jmpNotEq value address =>
    cases h
    exact if_both (P := fun u => Effect [.ip] [] 0#16 s u) (of_set ..) (refl ..)
  | pop dst => cases h; exact of_popInto ..
  | ret => cases h; exact of_popState s
  -- The sixteen rows of unassigned opcodes: the identity handler (spec/46_unassigned_opcodes.md rule R200).
  | _ => cases h; exact refl ..

end Effect

/-! ### The statements about every instruction -/

/-- Settles O34: the first two parts of the effect. -/
theorem everyInstructionKeepsWhatItDoesNotWrite : Obligations.EveryInstructionKeepsWhatItDoesNotWrite := by
  intro i s t h
  have effect := Effect.of_exec h
  exact ⟨effect.regs, effect.mem⟩

/-- Settles O35: the third part of the effect. -/
theorem sfsCountsPushesAndPopsOnly : Obligations.SfsCountsPushesAndPopsOnly := by
  intro i s t h
  exact (Effect.of_exec h).sfs

theorem sp_not_mem_of_destination_ne {dst : Reg} (h : some dst ≠ some Reg.sp) : Reg.sp ∉ [dst] := by
  simpa [eq_comm] using h

/-- `sp` moves against `sfs` (spec/10_state.md rule R33), but in a return, which takes it from `fp`, and where it is the
destination. -/
theorem exec_sp {i : Instr} {s t : State} (h : exec i s = .next t) (hret : i ≠ .ret)
    (hdst : destination i ≠ some .sp) : t.get .sp = s.get .sp - sfsChange i s := by
  have pushed {v : Word} (hp : push v s = .ok t) : t.get .sp = s.get .sp - 2#16 := by
    obtain ⟨-, hsp, -⟩ := push_eq_ok hp
    exact hsp
  have untouched (hw : Reg.sp ∉ writtenRegs i) : t.get .sp = s.get .sp - 0#16 := by
    rw [(Effect.of_exec h).regs .sp hw, BitVec.sub_zero]
  cases i with
  | ret => exact absurd rfl hret
  | pshLit literal => exact pushed (finishStore_eq_next h)
  | pshReg src => exact pushed (finishStore_eq_next h)
  | calLit address => exact (callTo_sp_sfs (finishStore_eq_next h)).1
  | calReg src => exact (callTo_sp_sfs (finishStore_eq_next h)).1
  | pop dst =>
    cases h
    have hne : Reg.sp ≠ dst := fun e => hdst (congrArg some e.symm)
    rw [popInto_get, if_neg hne, if_pos rfl]
    exact (BitVec.sub_neg ..).symm
  | movLitReg literal dst => exact untouched (sp_not_mem_of_destination_ne hdst)
  | movRegReg src dst => exact untouched (sp_not_mem_of_destination_ne hdst)
  | movMemReg address dst => exact untouched (sp_not_mem_of_destination_ne hdst)
  | _ => exact untouched (by simp [writtenRegs])

/-- Settles O36: `sp` falls by what `sfs` rises by. -/
theorem spPlusSfsIsKept : Obligations.SpPlusSfsIsKept := by
  intro i s t h hret hdst
  rw [exec_sp h hret hdst, (Effect.of_exec h).sfs]
  ring

/-- `acc` is written by ADD_REG_REG and by the instructions whose destination it is. -/
theorem acc_mem_writtenRegs {i : Instr} (h : Reg.acc ∈ writtenRegs i) :
    (∃ reg1 reg2, i = .addRegReg reg1 reg2) ∨ destination i = some .acc := by
  cases i with
  | addRegReg reg1 reg2 => exact .inl ⟨reg1, reg2, rfl⟩
  | movLitReg literal dst => exact .inr (congrArg some (List.mem_singleton.mp h).symm)
  | movRegReg src dst => exact .inr (congrArg some (List.mem_singleton.mp h).symm)
  | movMemReg address dst => exact .inr (congrArg some (List.mem_singleton.mp h).symm)
  | pop dst =>
    have hdst : Reg.acc ∈ [dst] := List.mem_of_ne_of_mem (by decide) h
    exact .inr (congrArg some (List.mem_singleton.mp hdst).symm)
  | _ => simp [writtenRegs] at h

/-- Settles O38: a register that changes is one that the instruction writes. -/
theorem accChangesOnlyByAddOrAsDestination : Obligations.AccChangesOnlyByAddOrAsDestination := by
  intro i s t h hchanged
  have hwritten : Reg.acc ∈ writtenRegs i := by
    by_contra hkept
    exact hchanged ((Effect.of_exec h).regs .acc hkept)
  exact acc_mem_writtenRegs hwritten

/-! ### Every reached state -/

/-- Any sequence of host commands keeps the invariant and the size. -/
theorem InvKept.of_reaches {s t : State} (h : Reaches s t) : InvKept s t := by
  induction h with
  | refl => exact of_mem_eq rfl
  | tail t u c _ hc ih => exact ih.trans (of_hostApply hc)

/-- Settles O41: the invariant holds after reset, and every command keeps it. -/
theorem everyReachedStateKeepsTheInvariantAndSize : Obligations.EveryReachedStateKeepsTheInvariantAndSize := by
  intro size t hmin hmax h
  obtain ⟨hsize, hinv⟩ := InvKept.of_reaches h
  exact ⟨hinv (invariantHoldsAfterReset size hmin hmax), hsize⟩

/-! ### A step outside memory -/

/-- The opcode byte 0 is an unassigned one: a no-op of one byte (spec/46_unassigned_opcodes.md rule R200). -/
theorem step_of_opcode_zero {s : State} (h : s.mem.byteAt (s.get .ip).toNat = 0#8) :
    step s = .next (s.set .ip (s.get .ip + 1#16)) := by
  rw [step, fetch8_value, fetch8_state, h]
  rfl

/-- Settles O13: the opcode byte outside memory reads as 0. -/
theorem stepOutsideMemoryIsANoOp : Obligations.StepOutsideMemoryIsANoOp := by
  intro s hip
  exact step_of_opcode_zero (s.mem.byteAt_of_size_le hip)

/-! ### Creation -/

theorem hostCreate_of_permitted {size : Nat} (h : memSizeOk size = true) :
    hostCreate size = .next (State.resetOfSize size) := if_pos h

theorem hostCreate_of_not_permitted {size : Nat} (h : ¬ memSizeOk size = true) :
    hostCreate size = .refused (.memSizeNotPermitted size) := if_neg h

theorem resetOfSize_get {r : Reg} (hsp : r ≠ .sp) (hfp : r ≠ .fp) (size : Nat) :
    (State.resetOfSize size).get r = 0#16 := by
  cases r with
  | sp => exact absurd rfl hsp
  | fp => exact absurd rfl hfp
  | _ => rfl

theorem resetOfSize_byteAt (size a : Nat) : (State.resetOfSize size).mem.byteAt a = 0#8 := by
  simp [State.resetOfSize, Memory.byteAt, cellAt]

/-- Settles O42: `sp` and `fp` hold `size - 2`, which is below 65536 for every permitted size. -/
theorem creationGivesTheResetValues : Obligations.CreationGivesTheResetValues := by
  constructor
  · intro size hmin hmax
    have hstack : (BitVec.ofNat 16 (size - 2)).toNat = size - 2 := Nat.mod_eq_of_lt (by omega)
    exact ⟨_, hostCreate_of_permitted (memSizeOk_iff.mpr ⟨hmin, hmax⟩), fun r hsp hfp => resetOfSize_get hsp hfp size,
      hstack, hstack, rfl, rfl, resetOfSize_byteAt size⟩
  · intro size hout
    refine hostCreate_of_not_permitted fun hok => ?_
    obtain ⟨hmin, hmax⟩ := memSizeOk_iff.mp hok
    omega

/-! ### The host's register accessors -/

/-- Settles O44: the command is one register write. -/
theorem hostRegisterWriteIsReadBack : Obligations.HostRegisterWriteIsReadBack := by
  intro r v s
  have effect := Effect.of_set r v s
  exact ⟨s.set r v, rfl, State.get_set_self s r v, effect.regs, State.set_sfs s r v,
    by rw [State.set_mem], fun a => by rw [State.set_mem]⟩

theorem regOfName_nameOfReg (r : Reg) : regOfName (nameOfReg r) = some r := by cases r <;> decide

theorem regOfName_eq_none {name : String} (h : ∀ r, name ≠ nameOfReg r) : regOfName name = none := by
  rw [regOfName, List.find?_eq_none]
  intro r _ heq
  exact h r (eq_of_beq heq).symm

/-- Settles O45: both accessors go through the table of names. -/
theorem hostNamesReachTheTwelveRegisters : Obligations.HostNamesReachTheTwelveRegisters := by
  constructor
  · intro r v s
    simp [hostGetNamed, hostSetNamed, regOfName_nameOfReg, hostGetReg]
  · intro name v s hname
    simp [hostGetNamed, hostSetNamed, regOfName_eq_none hname]

end Sys2Proof.Machine

/-! SUPPORT. The statements about memory (spec/20_memory.md): the reads and the writes of the host, the block load and
`show`, and a store over the next instruction. -/

namespace Sys2Proof.Machine

/-! ### Reads -/

theorem wordOfBytes_toNat (h l : Byte) : (wordOfBytes h l).toNat = h.toNat * 256 + l.toNat := by
  have hl : l.toNat < 2 ^ 8 := l.isLt
  rw [wordOfBytes, BitVec.toNat_append, ← Nat.shiftLeft_add_eq_or_of_lt hl, Nat.shiftLeft_eq]

/-- The number that a 16-bit read gives (spec/20_memory.md rule R53). -/
theorem Memory.read16_toNat (m : Memory) (a : Nat) :
    (m.read16 a).toNat = (m.byteAt a).toNat * 256 + (m.byteAt (a + 1)).toNat :=
  wordOfBytes_toNat ..

theorem Memory.read16_of_size_le (m : Memory) {a : Nat} (h : m.size ≤ a) : m.read16 a = 0#16 := by
  rw [Memory.read16, m.byteAt_of_size_le h, m.byteAt_of_size_le (Nat.le_succ_of_le h)]
  rfl

theorem Memory.window_getElem? (m : Memory) {a len k : Nat} (hk : k < len) :
    (m.window a len)[k]? = some (m.byteAt (a + k)) := by
  induction len generalizing a k with
  | zero => exact absurd hk (Nat.not_lt_zero k)
  | succ len ih =>
    cases k with
    | zero => rfl
    | succ k => rw [Memory.window, List.getElem?_cons_succ, ih (Nat.lt_of_succ_lt_succ hk), Nat.add_right_comm]; rfl

/-! ### A block -/

theorem Memory.byteAt_putBytes_outside (m : Memory) {a c : Nat} {bs : List Byte} (hc : c < a ∨ a + bs.length ≤ c) :
    (m.putBytes a bs).byteAt c = m.byteAt c := by
  induction bs generalizing m a with
  | nil => rfl
  | cons b bs ih =>
    rw [List.length_cons] at hc
    have hne : ¬ (c = a ∧ a < m.size) := by omega
    rw [Memory.putBytes, ih _ (by omega), Memory.byteAt_put, if_neg hne]

/-- The window over a block just written is the block: the bytes written after its first one leave that one alone. -/
theorem Memory.window_putBytes (m : Memory) {a : Nat} {bs : List Byte} (hfits : a + bs.length ≤ m.size) :
    (m.putBytes a bs).window a bs.length = bs := by
  induction bs generalizing m a with
  | nil => rfl
  | cons b bs ih =>
    rw [List.length_cons] at hfits
    have hfirst : (m.putBytes a (b :: bs)).byteAt a = b := by
      rw [Memory.putBytes, Memory.byteAt_putBytes_outside _ (.inl (Nat.lt_succ_self a)), Memory.byteAt_put,
        if_pos ⟨rfl, by omega⟩]
    have hrest : (m.putBytes a (b :: bs)).window (a + 1) bs.length = bs :=
      ih (m.put a b) (by rw [Memory.put_size]; omega)
    rw [List.length_cons, Memory.window, hfirst, hrest]

/-! ### Where each width of write is defined -/

theorem Memory.write8_of_lt {m : Memory} {a : Nat} (b : Byte) (h : a < m.size) : m.write8 a b = some (m.put a b) :=
  if_pos h

theorem Memory.write8_of_size_le {m : Memory} {a : Nat} (b : Byte) (h : m.size ≤ a) : m.write8 a b = none :=
  if_neg (Nat.not_lt.mpr h)

theorem blockFits_iff {size a len : Nat} : blockFits size a len = true ↔ a + len ≤ size :=
  decide_eq_true_iff

theorem Memory.setBlock_of_le {m : Memory} {a : Nat} {bs : List Byte} (h : a + bs.length ≤ m.size) :
    m.setBlock a bs = some (m.putBytes a bs) :=
  if_pos (blockFits_iff.mpr h)

theorem Memory.setBlock_of_lt {m : Memory} {a : Nat} {bs : List Byte} (h : m.size < a + bs.length) :
    m.setBlock a bs = none :=
  if_neg fun hfits => Nat.not_le.mpr h (blockFits_iff.mp hfits)

/-! ### The host's writes -/

theorem hostWrite_of_eq_some {a len : Nat} {s : State} {o : Option Memory} {m : Memory} (h : o = some m) :
    hostWrite a len s o = .next (s.setMem m) := by
  rw [h]; rfl

theorem hostWrite_of_eq_none {a len : Nat} {s : State} {o : Option Memory} (h : o = none) :
    hostWrite a len s o = .refused (.hostStoreOutOfRange a len) := by
  rw [h]; rfl

theorem sameRegsBut_setMem (written : List Reg) (s : State) (m : Memory) : SameRegsBut written s (s.setMem m) :=
  fun r _ => State.get_setMem s m r

/-! ### The statements about the host's reads and writes -/

/-- Settles O47: each of the three writes of memory is undefined there. -/
theorem hostWriteOutsideMemoryIsRefused : Obligations.HostWriteOutsideMemoryIsRefused := by
  intro a b v bs s
  exact ⟨fun h => hostWrite_of_eq_none (Memory.write8_of_size_le b h),
    fun h => hostWrite_of_eq_none (Memory.write16_eq_none_iff.mpr h),
    fun h => hostWrite_of_eq_none (Memory.setBlock_of_lt h)⟩

/-- Settles O50: the bytes of a block are what the window over it shows, and no byte outside it changes. -/
theorem blockLoadIsWhatShowReads : Obligations.BlockLoadIsWhatShowReads := by
  refine ⟨fun a bs s hfits => ?_, fun a bs s t hout h => ?_, fun a len k s hk => s.mem.window_getElem? hk⟩
  · exact ⟨_, hostWrite_of_eq_some (Memory.setBlock_of_le hfits), s.mem.window_putBytes hfits,
      fun c hc => s.mem.byteAt_putBytes_outside hc, s.mem.putBytes_size a bs, sameRegsBut_setMem [] s _, rfl⟩
  · obtain ⟨-, -, hrefused⟩ := hostWriteOutsideMemoryIsRefused a 0#8 0#16 bs s
    rw [hrefused hout] at h
    cases h

/-- Settles O46: the two widths of write, each with what every byte reads as after it. -/
theorem hostMemoryWriteChangesItsBytesOnly : Obligations.HostMemoryWriteChangesItsBytesOnly := by
  constructor
  · intro a b s ha
    have hwrite := Memory.write8_of_lt b ha
    obtain ⟨-, hsize, hbyte, -⟩ := Memory.write8_eq_some hwrite
    refine ⟨_, hostWrite_of_eq_some hwrite, ?_, fun c hc => ?_, hsize, sameRegsBut_setMem [] s _, rfl⟩
    · exact (hbyte a).trans (if_pos rfl)
    · exact (hbyte c).trans (if_neg hc)
  · intro a v s ha
    have hwrite := Memory.write16_of_lt v ha
    obtain ⟨-, hsize, hbyte, -⟩ := Memory.write16_eq_some hwrite
    refine ⟨_, hostWrite_of_eq_some hwrite, ?_, ?_, fun c hhigh hlow => ?_, hsize, sameRegsBut_setMem [] s _, rfl⟩
    · exact (hbyte a).trans (if_pos rfl)
    · exact (hbyte (a + 1)).trans ((if_neg (Nat.succ_ne_self a)).trans (if_pos rfl))
    · exact (hbyte c).trans ((if_neg hhigh).trans (if_neg hlow))

/-- Settles O48: at the last address of memory the second byte is outside and reads as 0. -/
theorem wordReadIsBigEndian : Obligations.WordReadIsBigEndian := by
  intro a s
  have hword : (hostGet16 a s).toNat = (hostGet8 a s).toNat * 256 + (hostGet8 (a + 1) s).toNat :=
    s.mem.read16_toNat a
  refine ⟨hword, fun hlast => ?_⟩
  have hoff : hostGet8 (a + 1) s = 0#8 := s.mem.byteAt_of_size_le hlast.ge
  rw [hword, hoff, BitVec.toNat_zero, Nat.add_zero]

/-- Settles O49: past the end of memory both bytes of a word are outside. -/
theorem readOutsideMemoryGivesZero : Obligations.ReadOutsideMemoryGivesZero := by
  intro a s h
  exact ⟨s.mem.byteAt_of_size_le h, s.mem.read16_of_size_le h⟩

/-! ### A store over the next instruction -/

/-- A store is what the two bytes at its address, and the word there, read as after it. -/
theorem store16_reads {a v : Word} {s t : State} (h : store16 a v s = .ok t) :
    t.mem.byteAt a.toNat = highByte v ∧ t.mem.byteAt (a.toNat + 1) = lowByte v ∧ t.mem.read16 a.toNat = v := by
  obtain ⟨-, -, -, -, hbyte, -⟩ := store16_eq_ok h
  have hhigh : t.mem.byteAt a.toNat = highByte v := (hbyte _).trans (if_pos rfl)
  have hlow : t.mem.byteAt (a.toNat + 1) = lowByte v :=
    (hbyte _).trans ((if_neg (Nat.succ_ne_self _)).trans (if_pos rfl))
  exact ⟨hhigh, hlow, by rw [Memory.read16, hhigh, hlow, wordOfBytes_high_low]⟩

/-- Settles O19: a store moves no register, so the next fetch reads at the address stored to. -/
theorem storeOverTheNextInstructionIsFetched : Obligations.StoreOverTheNextInstructionIsFetched := by
  intro src s t h
  have hstore : store16 (s.get .ip) (s.get src) s = .ok t := finishStore_eq_next h
  obtain ⟨-, hregs, -⟩ := store16_eq_ok hstore
  obtain ⟨hhigh, -, hword⟩ := store16_reads hstore
  rw [fetch8_value, fetch16_value, hregs]
  exact ⟨hhigh, hword⟩

end Sys2Proof.Machine

/-! SUPPORT. The statements about the encoding (spec/30_encoding.md): what an opcode byte and its operand bytes spell,
the decoder and the encoder each said in those terms, and the steps that rest on them. -/

namespace Sys2Proof.Machine

/-! ### Case analysis on the opcode byte -/

theorem isAssigned_eq_false_iff {op : Byte} :
    isAssigned op = false ↔ op ≠ 0x10#8 ∧ op ≠ 0x11#8 ∧ op ≠ 0x12#8 ∧ op ≠ 0x13#8 ∧ op ≠ 0x14#8 ∧ op ≠ 0x15#8 ∧
      op ≠ 0x17#8 ∧ op ≠ 0x18#8 ∧ op ≠ 0x1A#8 ∧ op ≠ 0x5E#8 ∧ op ≠ 0x5F#8 ∧ op ≠ 0x60#8 := by
  simp [isAssigned]

/-- An opcode byte is one of the twelve of rule R87, or unassigned (rule R89). -/
theorem opcode_cases {P : Byte → Prop} (movLitReg : P 0x10#8) (movRegReg : P 0x11#8) (movRegMem : P 0x12#8)
    (movMemReg : P 0x13#8) (addRegReg : P 0x14#8) (jmpNotEq : P 0x15#8) (pshLit : P 0x17#8) (pshReg : P 0x18#8)
    (pop : P 0x1A#8) (calLit : P 0x5E#8) (calReg : P 0x5F#8) (ret : P 0x60#8)
    (unassigned : ∀ op, isAssigned op = false → P op) (op : Byte) : P op := by
  cases hop : isAssigned op with
  | false => exact unassigned op hop
  | true =>
    simp only [isAssigned, List.mem_cons, List.not_mem_nil, or_false, decide_eq_true_eq] at hop
    obtain rfl | rfl | rfl | rfl | rfl | rfl | rfl | rfl | rfl | rfl | rfl | rfl := hop <;> assumption

/-! ### Unassigned opcode bytes -/

theorem operandKinds_of_not_assigned {op : Byte} (h : isAssigned op = false) : operandKinds op = [] := by
  obtain ⟨h10, h11, h12, h13, h14, h15, h17, h18, h1A, h5E, h5F, -⟩ := isAssigned_eq_false_iff.mp h
  simp [operandKinds, *]

theorem registerPlaces_of_not_assigned {op : Byte} (h : isAssigned op = false) : registerPlaces op = [] := by
  obtain ⟨h10, h11, h12, h13, h14, -, -, h18, h1A, -, h5F, -⟩ := isAssigned_eq_false_iff.mp h
  simp [registerPlaces, *]

theorem lengthOfOpcode_of_not_assigned {op : Byte} (h : isAssigned op = false) : lengthOfOpcode op = 1 := by
  rw [lengthOfOpcode, operandKinds_of_not_assigned h]
  rfl

theorem decodeUnassigned_length (op : Byte) : (decodeUnassigned op).length = 1 :=
  decodeUnassigned_cases (P := fun i => i.length = 1) (fun _ => rfl) rfl rfl rfl (fun _ => rfl) (fun _ => rfl)
    (fun _ => rfl) (fun _ => rfl) (fun _ => rfl) (fun _ => rfl) rfl (fun _ => rfl) (fun _ => rfl) (fun _ => rfl)
    (fun _ => rfl) (fun _ => rfl) op

/-- Every row of unassigned opcodes runs the identity handler (spec/46_unassigned_opcodes.md rule R200). -/
theorem exec_decodeUnassigned (op : Byte) (s : State) : exec (decodeUnassigned op) s = .next s :=
  decodeUnassigned_cases (P := fun i => exec i s = .next s) (fun _ => rfl) rfl rfl rfl (fun _ => rfl) (fun _ => rfl)
    (fun _ => rfl) (fun _ => rfl) (fun _ => rfl) (fun _ => rfl) rfl (fun _ => rfl) (fun _ => rfl) (fun _ => rfl)
    (fun _ => rfl) (fun _ => rfl) op

/-- The row of an unassigned opcode byte and the bits the row leaves free are the whole byte (the 244 bytes of
rule R89). -/
theorem encode_decodeUnassigned {op : Byte} (h : isAssigned op = false) : encode (decodeUnassigned op) = [op] := by
  revert op
  decide

/-! ### What an opcode byte and its operand bytes spell -/

/-- The opcode byte `op` with the operand bytes after it is instruction `i`: the table of rule R83, with any register
byte that selects the register (rule R85). -/
inductive Spells : Byte → List Byte → Instr → Prop where
  | movLitReg (h l d : Byte) : Spells 0x10#8 [h, l, d] (.movLitReg (wordOfBytes h l) (regOfByte d))
  | movRegReg (a d : Byte) : Spells 0x11#8 [a, d] (.movRegReg (regOfByte a) (regOfByte d))
  | movRegMem (a h l : Byte) : Spells 0x12#8 [a, h, l] (.movRegMem (regOfByte a) (wordOfBytes h l))
  | movMemReg (h l d : Byte) : Spells 0x13#8 [h, l, d] (.movMemReg (wordOfBytes h l) (regOfByte d))
  | addRegReg (a b : Byte) : Spells 0x14#8 [a, b] (.addRegReg (regOfByte a) (regOfByte b))
  | jmpNotEq (h l th tl : Byte) : Spells 0x15#8 [h, l, th, tl] (.jmpNotEq (wordOfBytes h l) (wordOfBytes th tl))
  | pshLit (h l : Byte) : Spells 0x17#8 [h, l] (.pshLit (wordOfBytes h l))
  | pshReg (a : Byte) : Spells 0x18#8 [a] (.pshReg (regOfByte a))
  | pop (d : Byte) : Spells 0x1A#8 [d] (.pop (regOfByte d))
  | calLit (h l : Byte) : Spells 0x5E#8 [h, l] (.calLit (wordOfBytes h l))
  | calReg (a : Byte) : Spells 0x5F#8 [a] (.calReg (regOfByte a))
  | ret : Spells 0x60#8 [] .ret
  | unassigned (op : Byte) (h : isAssigned op = false) : Spells op [] (decodeUnassigned op)

theorem Spells.decodeAfter_eq {op : Byte} {operands : List Byte} {i : Instr} (h : Spells op operands i)
    (rest : List Byte) : decodeAfter op (operands ++ rest) = some (i, rest) := by
  cases h with
  | unassigned _ hop => exact decodeAfter_of_not_assigned hop rest
  | _ => rfl

/-- What the decoder reads after an opcode byte is spelled by the bytes it takes, branch by branch of the decoder. -/
theorem spells_of_decodeAfter {op : Byte} {bs rest : List Byte} {i : Instr} (hdec : decodeAfter op bs = some (i, rest)) :
    ∃ operands, Spells op operands i ∧ bs = operands ++ rest := by
  cases op using opcode_cases with
  | movLitReg => match bs, hdec with | h :: l :: d :: _, rfl => exact ⟨_, .movLitReg h l d, rfl⟩
  | movRegReg => match bs, hdec with | a :: d :: _, rfl => exact ⟨_, .movRegReg a d, rfl⟩
  | movRegMem => match bs, hdec with | a :: h :: l :: _, rfl => exact ⟨_, .movRegMem a h l, rfl⟩
  | movMemReg => match bs, hdec with | h :: l :: d :: _, rfl => exact ⟨_, .movMemReg h l d, rfl⟩
  | addRegReg => match bs, hdec with | a :: b :: _, rfl => exact ⟨_, .addRegReg a b, rfl⟩
  | jmpNotEq => match bs, hdec with | h :: l :: th :: tl :: _, rfl => exact ⟨_, .jmpNotEq h l th tl, rfl⟩
  | pshLit => match bs, hdec with | h :: l :: _, rfl => exact ⟨_, .pshLit h l, rfl⟩
  | pshReg => match bs, hdec with | a :: _, rfl => exact ⟨_, .pshReg a, rfl⟩
  | pop => match bs, hdec with | d :: _, rfl => exact ⟨_, .pop d, rfl⟩
  | calLit => match bs, hdec with | h :: l :: _, rfl => exact ⟨_, .calLit h l, rfl⟩
  | calReg => match bs, hdec with | a :: _, rfl => exact ⟨_, .calReg a, rfl⟩
  | ret => cases hdec; exact ⟨_, .ret, rfl⟩
  | unassigned op hop =>
    rw [decodeAfter_of_not_assigned hop] at hdec
    cases hdec
    exact ⟨_, .unassigned op hop, rfl⟩

/-- The decoder takes exactly the bytes that spell an instruction. -/
theorem decode_eq_ok_iff_spells {op : Byte} {bs rest : List Byte} {i : Instr} :
    decode (op :: bs) = .ok (i, rest) ↔ ∃ operands, Spells op operands i ∧ bs = operands ++ rest := by
  rw [decode_eq_ok_iff]
  constructor
  · exact spells_of_decodeAfter
  · rintro ⟨operands, h, rfl⟩
    exact h.decodeAfter_eq rest

/-! ### Lengths -/

/-- The bytes that spell an instruction are as many as its opcode byte asks for (rule R88). -/
theorem Spells.lengthOfOpcode_eq {op : Byte} {operands : List Byte} {i : Instr} (h : Spells op operands i) :
    lengthOfOpcode op = 1 + operands.length := by
  cases h with
  | unassigned _ hop => exact lengthOfOpcode_of_not_assigned hop
  | _ => rfl

theorem Spells.length_eq {op : Byte} {operands : List Byte} {i : Instr} (h : Spells op operands i) :
    i.length = 1 + operands.length := by
  cases h with
  | unassigned _ _ => exact decodeUnassigned_length _
  | _ => rfl

/-- As many operand bytes as an opcode byte asks for spell an instruction, whatever they are (rule R90). -/
theorem exists_spells_of_length {op : Byte} {operands : List Byte} (hlen : operands.length + 1 = lengthOfOpcode op) :
    ∃ i, Spells op operands i := by
  cases op using opcode_cases with
  | movLitReg => match operands, (hlen : _ = 4) with | [h, l, d], _ => exact ⟨_, .movLitReg h l d⟩
  | movRegReg => match operands, (hlen : _ = 3) with | [a, d], _ => exact ⟨_, .movRegReg a d⟩
  | movRegMem => match operands, (hlen : _ = 4) with | [a, h, l], _ => exact ⟨_, .movRegMem a h l⟩
  | movMemReg => match operands, (hlen : _ = 4) with | [h, l, d], _ => exact ⟨_, .movMemReg h l d⟩
  | addRegReg => match operands, (hlen : _ = 3) with | [a, b], _ => exact ⟨_, .addRegReg a b⟩
  | jmpNotEq => match operands, (hlen : _ = 5) with | [h, l, th, tl], _ => exact ⟨_, .jmpNotEq h l th tl⟩
  | pshLit => match operands, (hlen : _ = 3) with | [h, l], _ => exact ⟨_, .pshLit h l⟩
  | pshReg => match operands, (hlen : _ = 2) with | [a], _ => exact ⟨_, .pshReg a⟩
  | pop => match operands, (hlen : _ = 2) with | [d], _ => exact ⟨_, .pop d⟩
  | calLit => match operands, (hlen : _ = 3) with | [h, l], _ => exact ⟨_, .calLit h l⟩
  | calReg => match operands, (hlen : _ = 2) with | [a], _ => exact ⟨_, .calReg a⟩
  | ret => match operands, (hlen : _ = 1) with | [], _ => exact ⟨_, .ret⟩
  | unassigned op hop =>
    rw [lengthOfOpcode_of_not_assigned hop] at hlen
    match operands, hlen with | [], _ => exact ⟨_, .unassigned op hop⟩

/-- The table of lengths of rule R88. -/
theorem lengthOfOpcode_eq_table (op : Byte) :
    lengthOfOpcode op =
      if op ∈ [0x10#8, 0x12#8, 0x13#8] then 4
      else if op ∈ [0x11#8, 0x14#8, 0x17#8, 0x5E#8] then 3
      else if op = 0x15#8 then 5
      else if op ∈ [0x18#8, 0x1A#8, 0x5F#8] then 2
      else 1 := by
  cases op using opcode_cases with
  | unassigned op hop =>
    rw [lengthOfOpcode_of_not_assigned hop]
    simp [isAssigned_eq_false_iff.mp hop]
  | _ => rfl

/-! ### The encoding -/

theorem Spells.of_decodeUnassigned {op : Byte} {i : Instr} (h : isAssigned op = false ∧ decodeUnassigned op = i) :
    Spells op [] i := by
  obtain ⟨hop, rfl⟩ := h
  exact .unassigned op hop

/-- The encoding of an instruction spells it: the bytes of a word are put together again, and the canonical byte of a
register selects it. -/
theorem encode_spells (i : Instr) : ∃ op operands, encode i = op :: operands ∧ Spells op operands i := by
  cases i with
  | movLitReg literal dst =>
    exact ⟨_, _, rfl, by simpa using Spells.movLitReg (highByte literal) (lowByte literal) dst.byte⟩
  | movRegReg src dst => exact ⟨_, _, rfl, by simpa using Spells.movRegReg src.byte dst.byte⟩
  | movRegMem src address =>
    exact ⟨_, _, rfl, by simpa using Spells.movRegMem src.byte (highByte address) (lowByte address)⟩
  | movMemReg address dst =>
    exact ⟨_, _, rfl, by simpa using Spells.movMemReg (highByte address) (lowByte address) dst.byte⟩
  | addRegReg reg1 reg2 => exact ⟨_, _, rfl, by simpa using Spells.addRegReg reg1.byte reg2.byte⟩
  | jmpNotEq value address =>
    have h := Spells.jmpNotEq (highByte value) (lowByte value) (highByte address) (lowByte address)
    exact ⟨_, _, rfl, by simpa using h⟩
  | pshLit literal => exact ⟨_, _, rfl, by simpa using Spells.pshLit (highByte literal) (lowByte literal)⟩
  | pshReg src => exact ⟨_, _, rfl, by simpa using Spells.pshReg src.byte⟩
  | pop dst => exact ⟨_, _, rfl, by simpa using Spells.pop dst.byte⟩
  | calLit address => exact ⟨_, _, rfl, by simpa using Spells.calLit (highByte address) (lowByte address)⟩
  | calReg src => exact ⟨_, _, rfl, by simpa using Spells.calReg src.byte⟩
  | ret => exact ⟨_, _, rfl, .ret⟩
  | unassigned00To0F low => exact ⟨_, _, rfl, .of_decodeUnassigned (by revert low; decide)⟩
  | unassigned16 => exact ⟨_, _, rfl, .of_decodeUnassigned (by decide)⟩
  | unassigned19 => exact ⟨_, _, rfl, .of_decodeUnassigned (by decide)⟩
  | unassigned1B => exact ⟨_, _, rfl, .of_decodeUnassigned (by decide)⟩
  | unassigned1CTo1F low => exact ⟨_, _, rfl, .of_decodeUnassigned (by revert low; decide)⟩
  | unassigned20To3F low => exact ⟨_, _, rfl, .of_decodeUnassigned (by revert low; decide)⟩
  | unassigned40To4F low => exact ⟨_, _, rfl, .of_decodeUnassigned (by revert low; decide)⟩
  | unassigned50To57 low => exact ⟨_, _, rfl, .of_decodeUnassigned (by revert low; decide)⟩
  | unassigned58To5B low => exact ⟨_, _, rfl, .of_decodeUnassigned (by revert low; decide)⟩
  | unassigned5CTo5D low => exact ⟨_, _, rfl, .of_decodeUnassigned (by revert low; decide)⟩
  | unassigned61 => exact ⟨_, _, rfl, .of_decodeUnassigned (by decide)⟩
  | unassigned62To63 low => exact ⟨_, _, rfl, .of_decodeUnassigned (by revert low; decide)⟩
  | unassigned64To67 low => exact ⟨_, _, rfl, .of_decodeUnassigned (by revert low; decide)⟩
  | unassigned68To6F low => exact ⟨_, _, rfl, .of_decodeUnassigned (by revert low; decide)⟩
  | unassigned70To7F low => exact ⟨_, _, rfl, .of_decodeUnassigned (by revert low; decide)⟩
  | unassigned80ToFF low => exact ⟨_, _, rfl, .of_decodeUnassigned (by revert low; decide)⟩

theorem encode_length (i : Instr) : (encode i).length = i.length := by cases i <;> rfl

/-- The byte that the encoding has at place `k` where the decoded bytes have `b`: the canonical byte of the register at
R83's register places (rule R86), `b` itself at every other. -/
def canonicalAt (op : Byte) (k : Nat) (b : Byte) : Byte := if k ∈ registerPlaces op then (regOfByte b).byte else b

theorem Spells.encode_eq {op : Byte} {operands : List Byte} {i : Instr} (h : Spells op operands i) :
    encode i = (op :: operands).mapIdx (canonicalAt op) := by
  cases h with
  | unassigned _ hop => simp [encode_decodeUnassigned hop, canonicalAt, registerPlaces_of_not_assigned hop]
  | _ => simp [encode, canonicalAt, registerPlaces]

/-! ### The statements about the decoder -/

/-- Settles O3: the encoding spells the instruction, and the decoder takes exactly the bytes that do. -/
theorem everyInstructionDecodesFromItsEncoding : Obligations.EveryInstructionDecodesFromItsEncoding := by
  intro i rest
  obtain ⟨op, operands, hencode, hspells⟩ := encode_spells i
  rw [hencode, List.cons_append]
  exact decode_eq_ok_iff_spells.mpr ⟨operands, hspells, rfl⟩

/-- Settles O4: the encoding is the bytes that spell the instruction, each register byte replaced by the canonical
one. -/
theorem decodedBytesAreTheEncodingUpToRegisterBytes : Obligations.DecodedBytesAreTheEncodingUpToRegisterBytes := by
  intro op bs rest i h
  obtain ⟨operands, hspells, rfl⟩ := decode_eq_ok_iff_spells.mp h
  refine ⟨op :: operands, rfl, ?_, encode_length i, fun k b hb => ?_⟩
  · rw [hspells.length_eq, List.length_cons, Nat.add_comm]
  · rw [hspells.encode_eq, List.getElem?_mapIdx, hb]
    rfl

/-- Settles O5: the bytes that spell an instruction are as many as the table gives its opcode byte. -/
theorem lengthIsAFunctionOfTheOpcodeByte : Obligations.LengthIsAFunctionOfTheOpcodeByte := by
  intro op bs rest i h
  obtain ⟨operands, hspells, rfl⟩ := decode_eq_ok_iff_spells.mp h
  constructor
  · rw [hspells.length_eq, List.length_append, Nat.add_assoc]
  · rw [hspells.length_eq, ← hspells.lengthOfOpcode_eq, lengthOfOpcode_eq_table]

/-- Settles O6: the operand bytes are the first of the list, as many as the opcode byte asks for. -/
theorem decodingFailsOnlyOnMissingBytes : Obligations.DecodingFailsOnlyOnMissingBytes := by
  intro op bs
  constructor
  · rintro ⟨i, rest, h⟩
    obtain ⟨operands, hspells, rfl⟩ := decode_eq_ok_iff_spells.mp h
    rw [hspells.lengthOfOpcode_eq, List.length_append]
    omega
  · intro hlen
    have hpos := lengthOfOpcode_pos op
    have htake : (bs.take (lengthOfOpcode op - 1)).length + 1 = lengthOfOpcode op := by
      rw [List.length_take]
      omega
    obtain ⟨i, hspells⟩ := exists_spells_of_length htake
    exact ⟨i, _, decode_eq_ok_iff_spells.mpr ⟨_, hspells, (List.take_append_drop _ bs).symm⟩⟩

/-! ### The statements about steps -/

theorem finishStore_ne_refused {i : Instr} {s : State} {e : Except Word State} {r : Refusal} :
    finishStore i s e ≠ .refused r := by
  intro h
  cases e <;> cases h

/-- Every instruction has a meaning: no arm of `exec` answers a refusal. -/
theorem exec_ne_refused (i : Instr) (s : State) (r : Refusal) : exec i s ≠ .refused r := by
  intro h
  cases i with
  | movRegMem src address => exact finishStore_ne_refused h
  | pshLit literal => exact finishStore_ne_refused h
  | pshReg src => exact finishStore_ne_refused h
  | calLit address => exact finishStore_ne_refused h
  | calReg src => exact finishStore_ne_refused h
  | _ => cases h

/-- The fetch unit reads as many bytes as the opcode byte asks for, so they decode. -/
theorem exists_decode_fetchInstr (s : State) : ∃ i rest, decode (fetchInstr s).1 = .ok (i, rest) := by
  refine (decodingFailsOnlyOnMissingBytes _ _).mpr (Nat.le_of_eq ?_)
  rw [← fetchInstr_length, fetchInstr, List.length_cons, Nat.add_comm]

/-- Settles O11: the bytes at `ip` decode, and their instruction has a meaning. -/
theorem stepIsNeverRefused : Obligations.StepIsNeverRefused := by
  intro s r
  obtain ⟨i, rest, hdecode⟩ := exists_decode_fetchInstr s
  rw [step_eq_runBytes, runBytes, hdecode]
  exact exec_ne_refused i _ r

/-- Settles O14, by induction on the number of steps: each fetches a 0 and leaves memory alone. -/
theorem zeroedMemoryRunsAsNoOps : Obligations.ZeroedMemoryRunsAsNoOps := by
  intro k
  induction k with
  | zero => intro s _; simp [run_zero]
  | succ k ih =>
    intro s hzero
    have hzero' : ∀ a, (s.set .ip (s.get .ip + 1#16)).mem.byteAt a = 0#8 := by simpa using hzero
    rw [run_succ_of_next (step_of_opcode_zero (hzero _)), ih _ hzero', State.get_set_self, State.set_set_self,
      Nat.add_comm k, BitVec.ofNat_add, BitVec.add_assoc]

/-- A step with an unassigned opcode byte at `ip` only moves `ip` past it (rule R200). -/
theorem step_of_not_assigned {s : State} {op : Byte} (hop : isAssigned op = false)
    (h : s.mem.byteAt (s.get .ip).toNat = op) : step s = .next (s.set .ip (s.get .ip + 1#16)) := by
  have hdecode : decode [op] = .ok (decodeUnassigned op, []) :=
    decode_eq_ok_iff_spells.mpr ⟨[], .unassigned op hop, rfl⟩
  rw [step, execute, fetch8_value, fetch8_state, h, operandKinds_of_not_assigned hop, fetchOperands, runBytes, hdecode]
  exact exec_decodeUnassigned op _

/-- Rule R89's list of opcode bytes holds none of the twelve assigned ones. -/
theorem not_assigned_of_listed {op : Byte}
    (h : op ≤ 0x0F#8 ∨ op = 0x16#8 ∨ op = 0x19#8 ∨ (0x1B#8 ≤ op ∧ op ≤ 0x5D#8) ∨ 0x61#8 ≤ op) :
    isAssigned op = false := by
  cases op using opcode_cases with
  | unassigned op hop => exact hop
  | _ => exact absurd h (by decide)

/-- Settles O31: the byte is the whole encoding of its row, and the row runs the identity handler. -/
theorem unassignedOpcodesAreOneByteNoOps : Obligations.UnassignedOpcodesAreOneByteNoOps := by
  intro op hlisted
  have hop := not_assigned_of_listed hlisted
  exact ⟨⟨_, encode_decodeUnassigned hop, fun bs => decode_eq_ok_iff_spells.mpr ⟨[], .unassigned op hop, rfl⟩⟩,
    fun _ hbyte => step_of_not_assigned hop hbyte⟩

/-! ### Register bytes and the words of the spec -/

theorem regOfByte_of_mod {b : Byte} {n : Nat} (h : b.toNat % 12 = n) : regOfByte b = regOfNumber n := by
  rw [regOfByte, h]

/-- Settles O1, residue by residue of the rule's table. -/
theorem registerByteSelectsItsResidueModuloTwelve : Obligations.RegisterByteSelectsItsResidueModuloTwelve := by
  intro b
  exact ⟨fun h => regOfByte_of_mod h, fun h => regOfByte_of_mod h, fun h => regOfByte_of_mod h,
    fun h => regOfByte_of_mod h, fun h => regOfByte_of_mod h, fun h => regOfByte_of_mod h,
    fun h => regOfByte_of_mod h, fun h => regOfByte_of_mod h, fun h => regOfByte_of_mod h,
    fun h => regOfByte_of_mod h, fun h => regOfByte_of_mod h, fun h => regOfByte_of_mod h⟩

/-- Settles O2: the decoder evaluates on each of the eleven byte lists. -/
theorem wordsOfTheSpecDecode : Obligations.WordsOfTheSpecDecode :=
  ⟨rfl, rfl, rfl, rfl, rfl, rfl, rfl, rfl, rfl, rfl, rfl⟩

end Sys2Proof.Machine

/-! SUPPORT. The statements about fetch, decode and step (spec/40_fetch_decode_step.md): the two fetches, the step as
the decoded instruction and as the spec's handlers, and where an instruction stops. -/

namespace Sys2Proof.Machine

/-! ### The fetches -/

theorem SameMemory.of_mem_eq {s t : State} (h : t.mem = s.mem) : SameMemory s t :=
  ⟨by rw [h], fun _ => by rw [h]⟩

/-- All that a register write does. -/
theorem State.set_effect (s : State) (r : Reg) (v : Word) :
    (s.set r v).get r = v ∧ SameRegsBut [r] s (s.set r v) ∧ (s.set r v).sfs = s.sfs ∧ SameMemory s (s.set r v) :=
  ⟨State.get_set_self s r v, (Effect.of_set r v s).regs, State.set_sfs s r v, .of_mem_eq (State.set_mem s r v)⟩

theorem regOfNumber_of_lt {n : Nat} (h : n < 12) : (regOfNumber n).number = n := by
  interval_cases n <;> rfl

theorem regOfByte_number (b : Byte) : (regOfByte b).number = b.toNat % 12 :=
  regOfNumber_of_lt (Nat.mod_lt _ (by decide))

/-- Settles O7: a fetch of a byte writes `ip` and nothing else, and `FetchReg` is that fetch. -/
theorem byteFetchReadsAtIpAndAdvancesIt : Obligations.ByteFetchReadsAtIpAndAdvancesIt := by
  intro s
  obtain ⟨hip, hregs, hsfs, hmem⟩ := s.set_effect .ip (s.get .ip + 1#16)
  exact ⟨fetch8_value s, hip, hregs, hsfs, hmem, regOfByte_number _, rfl⟩

/-- No permitted memory reaches address `0x10000`. -/
theorem State.Inv.byteAt_of_le {s : State} (h : s.Inv) {a : Nat} (ha : 65536 ≤ a) : s.mem.byteAt a = 0#8 := by
  obtain ⟨-, hmax⟩ := memSizeOk_iff.mp h.size_permitted
  exact s.mem.byteAt_of_size_le (hmax.trans ha)

/-- Settles O8: the fetch of a word is one 16-bit read, whose second byte at `ip = 0xFFFF` lies outside every memory. -/
theorem wordFetchIsOneReadEvenAtTheTopAddress : Obligations.WordFetchIsOneReadEvenAtTheTopAddress := by
  intro s hinv
  have hword := s.mem.read16_toNat (s.get .ip).toNat
  refine ⟨hword, fun htop => ?_, s.set_effect .ip (s.get .ip + 2#16)⟩
  have hlow : s.mem.byteAt ((s.get .ip).toNat + 1) = 0#8 := hinv.byteAt_of_le (by rw [htop]; decide)
  rw [fetch16_value, hword, hlow, htop, BitVec.toNat_zero, Nat.add_zero]
  rfl

/-! ### A step is the decoded instruction -/

/-- The fetch unit reads no byte beyond those of the instruction they decode to. -/
theorem decode_fetchInstr_exact {s : State} {i : Instr} {rest : List Byte}
    (h : decode (fetchInstr s).1 = .ok (i, rest)) : rest = [] ∧ i.length = lengthOfOpcode (fetch8 s).1 := by
  have hlength := fetchInstr_length s
  rw [fetchInstr] at h hlength
  obtain ⟨operands, hspells, hbytes⟩ := decode_eq_ok_iff_spells.mp h
  rw [List.length_cons, hbytes, List.length_append, hspells.lengthOfOpcode_eq] at hlength
  exact ⟨List.length_eq_zero_iff.mp (by omega), by rw [hspells.length_eq, hspells.lengthOfOpcode_eq]⟩

/-- Settles O9: the bytes that the fetch unit reads are those of the instruction, and the fetch only moves `ip`. -/
theorem stepRunsTheDecodedInstruction : Obligations.StepRunsTheDecodedInstruction := by
  intro s i rest hdecode
  obtain ⟨hrest, hlength⟩ := decode_fetchInstr_exact hdecode
  refine ⟨hrest, ?_⟩
  rw [step_eq_runBytes, runBytes, hdecode, fetchInstr_state, hlength]

/-! ### The bytes in memory that the fetch unit reads -/

theorem Memory.window_add (m : Memory) (a j k : Nat) : m.window a (j + k) = m.window a j ++ m.window (a + j) k := by
  induction j generalizing a with
  | zero => simp [Memory.window]
  | succ j ih => rw [Nat.add_right_comm, Memory.window, ih, Memory.window, List.cons_append, Nat.add_assoc,
      Nat.add_comm 1 j]

theorem Memory.window_eq_of_bytes (m : Memory) {a : Nat} {bs : List Byte}
    (h : ∀ (k : Nat) (b : Byte), bs[k]? = some b → m.byteAt (a + k) = b) : m.window a bs.length = bs := by
  refine List.ext_getElem (m.window_length a _) fun k hk hk' => ?_
  have hread := m.window_getElem? (a := a) hk'
  rw [List.getElem?_eq_getElem hk, h k _ (List.getElem?_eq_getElem hk')] at hread
  exact Option.some.inj hread

theorem operandKind_bytes_pos (k : OperandKind) : 0 < k.bytes := by cases k <;> decide

theorem fetchOperand_eq_window (k : OperandKind) (s : State) :
    (fetchOperand k s).1 = s.mem.window (s.get .ip).toNat k.bytes := by
  cases k <;> simp [fetchOperand, OperandKind.bytes, Memory.window, Memory.read16]

/-- Operands that do not run past address `0xFFFF` are read from consecutive addresses. The address is a number beside
`ip`, since after an operand that ends at `0xFFFF` it is 65536 where `ip` is 0. -/
theorem fetchOperands_eq_window (ks : List OperandKind) {s : State} {a : Nat} (hip : s.get .ip = BitVec.ofNat 16 a)
    (hfits : a + (ks.map OperandKind.bytes).sum ≤ 65536) :
    (fetchOperands ks s).1 = s.mem.window a (ks.map OperandKind.bytes).sum := by
  induction ks generalizing s a with
  | nil => rfl
  | cons k ks ih =>
    rw [List.map_cons, List.sum_cons] at hfits ⊢
    have hpos := operandKind_bytes_pos k
    have haddress : (s.get .ip).toNat = a := by rw [hip]; exact Nat.mod_eq_of_lt (by omega)
    have hnext : (fetchOperand k s).2.get .ip = BitVec.ofNat 16 (a + k.bytes) := by
      rw [fetchOperand_state, State.get_set_self, hip, BitVec.ofNat_add]
    rw [fetchOperands, fetchOperand_eq_window, haddress, ih hnext (by omega), fetchOperand_state, State.set_mem,
      Memory.window_add]

/-- An instruction that does not run past address `0xFFFF` is fetched from consecutive addresses. -/
theorem fetchInstr_eq_window {s : State}
    (hfits : (s.get .ip).toNat + lengthOfOpcode (fetch8 s).1 ≤ 65536) :
    (fetchInstr s).1 = s.mem.window (s.get .ip).toNat (lengthOfOpcode (fetch8 s).1) := by
  have hip : (fetch8 s).2.get .ip = BitVec.ofNat 16 ((s.get .ip).toNat + 1) := by
    rw [fetch8_state, State.get_set_self, BitVec.ofNat_add, BitVec.ofNat_toNat, BitVec.setWidth_eq]
  rw [lengthOfOpcode, ← Nat.add_assoc] at hfits
  rw [fetchInstr, fetchOperands_eq_window _ hip hfits, lengthOfOpcode, Nat.add_comm 1, Memory.window, fetch8_value,
    fetch8_state, State.set_mem]

/-- Settles O10: the bytes fetched are the encoding, which decodes to the instruction. -/
theorem encodingInMemoryIsWhatTheStepRuns : Obligations.EncodingInMemoryIsWhatTheStepRuns := by
  intro s i hfits hbytes
  obtain ⟨op, operands, hencode, hspells⟩ := encode_spells i
  have hopcode : (fetch8 s).1 = op := hbytes 0 op (by rw [hencode]; rfl)
  have hlength : lengthOfOpcode (fetch8 s).1 = (encode i).length := by
    rw [hopcode, hspells.lengthOfOpcode_eq, hencode, List.length_cons, Nat.add_comm]
  have hfetch : (fetchInstr s).1 = encode i := by
    rw [fetchInstr_eq_window (by rwa [hlength, encode_length]), hlength, Memory.window_eq_of_bytes _ hbytes]
  have hdecode : decode (fetchInstr s).1 = .ok (i, []) := by
    simpa [hfetch] using everyInstructionDecodesFromItsEncoding i []
  obtain ⟨-, hstep⟩ := stepRunsTheDecodedInstruction s i [] hdecode
  exact hstep

/-! ### The spec's handlers -/

/-- `execute` runs the instruction that the opcode byte and the operand bytes it fetches spell. -/
theorem execute_of_spells {op : Byte} {s : State} {i : Instr} (h : Spells op (fetchOperands (operandKinds op) s).1 i) :
    execute op s = exec i (fetchOperands (operandKinds op) s).2 := by
  have hdecode := decode_eq_ok_iff_spells.mpr ⟨_, h, (List.append_nil _).symm⟩
  rw [execute, runBytes, hdecode]

theorem handler_of_not_assigned {op : Byte} (h : isAssigned op = false) : handler op = identityHandler := by
  obtain ⟨h10, h11, h12, h13, h14, h15, h17, h18, h1A, h5E, h5F, h60⟩ := isAssigned_eq_false_iff.mp h
  simp [handler, *]

/-- A word operand reaches the meaning as the handler fetches it: the decoder puts its two bytes together again. -/
theorem execute_eq_handler (op : Byte) (s : State) : execute op s = handler op s := by
  cases op using opcode_cases with
  | movLitReg => exact (execute_of_spells (.movLitReg _ _ _)).trans (by rw [wordOfBytes_high_low]; rfl)
  | movRegReg => exact execute_of_spells (.movRegReg _ _)
  | movRegMem => exact (execute_of_spells (.movRegMem _ _ _)).trans (by rw [wordOfBytes_high_low]; rfl)
  | movMemReg => exact (execute_of_spells (.movMemReg _ _ _)).trans (by rw [wordOfBytes_high_low]; rfl)
  | addRegReg => exact execute_of_spells (.addRegReg _ _)
  | jmpNotEq =>
    exact (execute_of_spells (.jmpNotEq _ _ _ _)).trans (by rw [wordOfBytes_high_low, wordOfBytes_high_low]; rfl)
  | pshLit => exact (execute_of_spells (.pshLit _ _)).trans (by rw [wordOfBytes_high_low]; rfl)
  | pshReg => exact execute_of_spells (.pshReg _)
  | pop => exact execute_of_spells (.pop _)
  | calLit => exact (execute_of_spells (.calLit _ _)).trans (by rw [wordOfBytes_high_low]; rfl)
  | calReg => exact execute_of_spells (.calReg _)
  | ret => exact execute_of_spells .ret
  | unassigned op hop =>
    have hkinds := operandKinds_of_not_assigned hop
    rw [execute_of_spells (by rw [hkinds]; exact .unassigned op hop), hkinds, handler_of_not_assigned hop]
    exact exec_decodeUnassigned op s

/-- Settles O12: the two steps fetch the same opcode byte, and agree on every one. -/
theorem decodeThenRunAgreesWithTheHandlers : Obligations.DecodeThenRunAgreesWithTheHandlers :=
  ⟨fun _ => execute_eq_handler _ _, execute_eq_handler⟩

/-! ### Where an instruction stops -/

/-- The first of a list of 16-bit stores that is out of range. -/
def firstOut (s : State) (addresses : List Word) : Option Word := addresses.find? fun a => !inRange s a

theorem inRange_eq_true_iff {s : State} {a : Word} : inRange s a = true ↔ a.toNat + 1 < s.mem.size :=
  decide_eq_true_iff

theorem inRange_eq_false_iff {s : State} {a : Word} : inRange s a = false ↔ s.mem.size ≤ a.toNat + 1 := by
  rw [inRange, decide_eq_false_iff_not, Nat.not_lt]

theorem firstOut_singleton_of_lt {s : State} {a : Word} (h : a.toNat + 1 < s.mem.size) : firstOut s [a] = none := by
  simp [firstOut, inRange_eq_true_iff.mpr h]

theorem firstOut_singleton_of_le {s : State} {a : Word} (h : s.mem.size ≤ a.toNat + 1) : firstOut s [a] = some a := by
  simp [firstOut, inRange_eq_false_iff.mpr h]

/-- The ten stores of a call are in range where every slot of its frame is. -/
theorem firstOut_frameSlots_eq_none {s : State} {sp : Word} (h : ∀ k < 10, (slot sp k).toNat + 1 < s.mem.size) :
    firstOut s (frameSlots sp) = none := by
  rw [firstOut, frameSlots_eq_map_slot, List.find?_eq_none]
  simpa [inRange_eq_true_iff] using h

/-- The first store of a call that is out of range is at the first slot of its frame that is. -/
theorem firstOut_frameSlots_eq_some {s : State} {sp : Word} {k : Nat} (hk : k < 10)
    (hout : s.mem.size ≤ (slot sp k).toNat + 1) (hbefore : ∀ j < k, (slot sp j).toNat + 1 < s.mem.size) :
    firstOut s (frameSlots sp) = some (slot sp k) := by
  have hfirst : (List.range 10).find? ((fun a => !inRange s a) ∘ slot sp) = some k := by
    simpa [List.find?_range_eq_some, inRange_eq_true_iff, inRange_eq_false_iff] using ⟨hout, hk, hbefore⟩
  rw [firstOut, frameSlots_eq_map_slot, List.find?_map, hfirst, Option.map_some]

/-- What stores at `addresses`, in order, can answer: a state where each is in range, and else the address of the first
that is not. -/
inductive StoreOutcome (s : State) (addresses : List Word) : Except Word State → Prop where
  | stored (t : State) (h : firstOut s addresses = none) : StoreOutcome s addresses (.ok t)
  | stopped (a : Word) (h : firstOut s addresses = some a) : StoreOutcome s addresses (.error a)

theorem StoreOutcome.of_store16 (a v : Word) (s : State) : StoreOutcome s [a] (store16 a v s) := by
  cases h : store16 a v s with
  | ok t =>
    obtain ⟨hin, -⟩ := store16_eq_ok h
    exact .stored t (firstOut_singleton_of_lt hin)
  | error b =>
    obtain ⟨hout, rfl⟩ := store16_eq_error_iff.mp h
    exact .stopped b (firstOut_singleton_of_le hout)

theorem StoreOutcome.of_push (v : Word) (s : State) : StoreOutcome s [s.get .sp] (push v s) := by
  cases h : push v s with
  | ok t =>
    obtain ⟨hin, -⟩ := push_eq_ok h
    exact .stored t (firstOut_singleton_of_lt hin)
  | error b =>
    obtain ⟨hout, rfl⟩ := push_eq_error_iff.mp h
    exact .stopped _ (firstOut_singleton_of_le hout)

theorem StoreOutcome.of_callTo (target : Word) (s : State) :
    StoreOutcome s (frameSlots (s.get .sp)) (callTo target s) := by
  unfold callTo
  split
  · rename_i t ht
    obtain ⟨-, -, -, -, -, hin, -⟩ := pushState_eq_ok ht
    exact .stored _ (firstOut_frameSlots_eq_none hin)
  · rename_i b hb
    obtain ⟨k, hk, rfl, hout, hbefore⟩ := pushState_eq_error hb
    exact .stopped _ (firstOut_frameSlots_eq_some hk hout hbefore)

/-- The outcome `o` of instruction `i` is a next state where all its stores are in range, and else the fault that names
it, its address and its first store that is not. -/
def StopsAtFirstOut (i : Instr) (s : State) (o : Host.Outcome State Fault Refusal) : Prop :=
  (firstOut s (storeAddresses i s) = none ∧ ∃ t, o = .next t) ∨
    ∃ a, firstOut s (storeAddresses i s) = some a ∧
      o = .fault (.storeOutOfRange i (s.get .ip - BitVec.ofNat 16 i.length) a)

theorem StoreOutcome.stopsAtFirstOut {i : Instr} {s : State} {r : Except Word State}
    (h : StoreOutcome s (storeAddresses i s) r) : StopsAtFirstOut i s (finishStore i s r) := by
  cases h with
  | stored t hin => exact .inl ⟨hin, t, rfl⟩
  | stopped a hout => exact .inr ⟨a, hout, rfl⟩

theorem exec_stopsAtFirstOut (i : Instr) (s : State) : StopsAtFirstOut i s (exec i s) := by
  cases i with
  | movRegMem src address => exact StoreOutcome.stopsAtFirstOut (.of_store16 ..)
  | pshLit literal => exact StoreOutcome.stopsAtFirstOut (.of_push ..)
  | pshReg src => exact StoreOutcome.stopsAtFirstOut (.of_push ..)
  | calLit address => exact StoreOutcome.stopsAtFirstOut (.of_callTo ..)
  | calReg src => exact StoreOutcome.stopsAtFirstOut (.of_callTo ..)
  -- No other instruction stores anything.
  | _ => exact .inl ⟨rfl, _, rfl⟩

/-- Settles O33: an instruction's outcome is that of its stores. -/
theorem onlyAStoreOutOfRangeStopsAnInstruction : Obligations.OnlyAStoreOutOfRangeStopsAnInstruction := by
  intro i s
  obtain ⟨hin, hnext⟩ | ⟨a, hout, hfault⟩ := exec_stopsAtFirstOut i s
  · rw [firstOut] at hin
    rw [hin]
    exact hnext
  · rw [firstOut] at hout
    rw [hout]
    exact hfault

end Sys2Proof.Machine

/-! SUPPORT. The statements about data movement (spec/41_data_movement.md): what a step does with the bytes that spell an
instruction, and the meanings that load a register and that store one. -/

namespace Sys2Proof.Machine

/-! ### A step at the bytes that spell an instruction -/

/-- A step runs the instruction that the bytes at `ip` spell, on the state whose `ip` is past them. -/
theorem Spells.stepsAs {op : Byte} {operands : List Byte} {i : Instr} (h : Spells op operands i) :
    StepsAs (op :: operands) i := by
  intro s hbytes
  have hdecode : decode (fetchInstr s).1 = .ok (i, []) := by
    rw [hbytes]
    exact decode_eq_ok_iff_spells.mpr ⟨operands, h, (List.append_nil _).symm⟩
  obtain ⟨-, hstep⟩ := stepRunsTheDecodedInstruction s i [] hdecode
  rw [hstep, h.length_eq, List.length_cons, Nat.add_comm]

/-! ### Loads and stores -/

/-- A store completes wherever both its bytes are in range. -/
theorem store16_of_lt {a : Word} (v : Word) {s : State} (h : a.toNat + 1 < s.mem.size) :
    ∃ t, store16 a v s = .ok t := by
  rw [store16, Memory.write16_of_lt v h]
  exact ⟨_, rfl⟩

theorem exec_movRegMem_eq_next_iff {src : Reg} {address : Word} {s t : State} :
    exec (.movRegMem src address) s = .next t ↔ store16 address (s.get src) s = .ok t :=
  ⟨finishStore_eq_next, congrArg (finishStore (.movRegMem src address) s)⟩

theorem exec_movMemReg (address : Word) (dst : Reg) (s : State) :
    exec (.movMemReg address dst) s = .next (s.set dst (s.mem.read16 address.toNat)) := rfl

/-! ### The statements about data movement -/

/-- Settles O18: the loaded word is one big-endian read, and what a store to its address left there. -/
theorem movMemRegLoadsBigEndian : Obligations.MovMemRegLoadsBigEndian := by
  refine ⟨fun h l b => (Spells.movMemReg h l b).stepsAs, fun address dst s => ?_,
    fun src dst address s t u hstore hmem => ?_⟩
  · obtain ⟨hget, hframe⟩ := s.set_effect dst (s.mem.read16 address.toNat)
    obtain ⟨hword, hlast⟩ := wordReadIsBigEndian address.toNat s
    have hload := congrArg BitVec.toNat hget
    exact ⟨_, exec_movMemReg address dst s, hload.trans hword, fun hout => hget.trans (s.mem.read16_of_size_le hout),
      fun hend => hload.trans (hlast hend.symm), hframe⟩
  · obtain ⟨-, -, hword⟩ := store16_reads (exec_movRegMem_eq_next_iff.mp hstore)
    exact ⟨_, exec_movMemReg address dst u, by rw [State.get_set_self, hmem, hword]⟩

/-- Settles O15: the meaning is one register write. -/
theorem movLitRegLoadsItsLiteral : Obligations.MovLitRegLoadsItsLiteral :=
  ⟨fun h l b => (Spells.movLitReg h l b).stepsAs, fun literal dst s => ⟨_, rfl, s.set_effect dst literal⟩⟩

/-- Settles O16: the meaning is one register write, of what the source reads before it. -/
theorem movRegRegCopiesItsSource : Obligations.MovRegRegCopiesItsSource :=
  ⟨fun a b => (Spells.movRegReg a b).stepsAs, fun src dst s => ⟨_, rfl, s.set_effect dst (s.get src)⟩⟩

/-- Settles O17: the meaning is one 16-bit store, which completes exactly where both its bytes are in range. -/
theorem movRegMemStoresBigEndian : Obligations.MovRegMemStoresBigEndian := by
  refine ⟨fun a h l => (Spells.movRegMem a h l).stepsAs, fun src address s hin => ?_,
    fun src address s t hout hnext => ?_⟩
  · obtain ⟨t, hstore⟩ := store16_of_lt (s.get src) hin
    obtain ⟨hhigh, hlow, -⟩ := store16_reads hstore
    obtain ⟨-, hregs, hsfs, -⟩ := store16_eq_ok hstore
    exact ⟨t, exec_movRegMem_eq_next_iff.mpr hstore, hhigh, hlow, fun r _ => hregs r, hsfs,
      (Effect.of_store16 hstore).mem⟩
  · obtain ⟨hin, -⟩ := store16_eq_ok (exec_movRegMem_eq_next_iff.mp hnext)
    exact Nat.not_le.mpr hin hout

end Sys2Proof.Machine

/-! SUPPORT. The statement about arithmetic (spec/42_arithmetic.md): what the ALU's addition is over the natural numbers,
and the one instruction that adds. -/

namespace Sys2Proof.Machine

theorem aluAdd_toNat (a b : Word) : (aluAdd a b).toNat = (a.toNat + b.toNat) % 65536 := BitVec.toNat_add a b

theorem exec_addRegReg (reg1 reg2 : Reg) (s : State) :
    exec (.addRegReg reg1 reg2) s = .next (s.set .acc (aluAdd (s.get reg1) (s.get reg2))) := rfl

/-- Settles O20: the meaning is one write of `acc`, of the sum of what the sources read before it. -/
theorem addRegRegWritesTheSumModulo65536 : Obligations.AddRegRegWritesTheSumModulo65536 := by
  refine ⟨fun a b => (Spells.addRegReg a b).stepsAs, fun reg1 reg2 s => ?_⟩
  obtain ⟨hacc, hframe⟩ := s.set_effect .acc (aluAdd (s.get reg1) (s.get reg2))
  have hsum := (congrArg BitVec.toNat hacc).trans (aluAdd_toNat (s.get reg1) (s.get reg2))
  exact ⟨_, exec_addRegReg reg1 reg2 s, hsum, hframe⟩

end Sys2Proof.Machine

/-! SUPPORT. The statements about control transfer (spec/43_branch.md): the two outcomes of the conditional branch, where a
call and a return leave `ip`, and which instructions write it at all. -/

namespace Sys2Proof.Machine

/-! ### The conditional branch -/

theorem aluNotEqual_eq_true_iff {a b : Word} : aluNotEqual a b = true ↔ a ≠ b := decide_eq_true_iff

theorem exec_jmpNotEq_of_ne {value : Word} (address : Word) {s : State} (h : value ≠ s.get .acc) :
    exec (.jmpNotEq value address) s = .next (s.set .ip address) :=
  congrArg Host.Outcome.next (if_pos (aluNotEqual_eq_true_iff.mpr h))

theorem exec_jmpNotEq_of_eq {value : Word} (address : Word) {s : State} (h : value = s.get .acc) :
    exec (.jmpNotEq value address) s = .next s :=
  congrArg Host.Outcome.next (if_neg (mt aluNotEqual_eq_true_iff.mp (not_not_intro h)))

/-- Settles O21: the meaning is one write of `ip` where the value differs from `acc`, and nothing where it does not. -/
theorem jmpNotEqJumpsExactlyOnDifference : Obligations.JmpNotEqJumpsExactlyOnDifference := by
  refine ⟨fun h l th tl => (Spells.jmpNotEq h l th tl).stepsAs, fun value address s => ?_⟩
  by_cases heq : value = s.get .acc
  · exact ⟨s, exec_jmpNotEq_of_eq address heq, fun hne => absurd heq hne, fun _ => rfl, fun _ _ => rfl, rfl,
      .of_mem_eq rfl⟩
  · obtain ⟨hip, hframe⟩ := s.set_effect .ip address
    exact ⟨_, exec_jmpNotEq_of_ne address heq, fun _ => hip, fun h => absurd h heq, hframe⟩

/-! ### The ways `ip` changes -/

theorem callTo_ip {target : Word} {s t : State} (h : callTo target s = .ok t) : t.get .ip = target := by
  obtain ⟨u, -, rfl⟩ := callTo_eq_ok h
  exact State.get_set_self u .ip target

/-- A return takes `ip` from the word above the marker, the first it restores (spec/45_call_return.md rule R178). -/
theorem popState_ip (s : State) : (popState s).get .ip = s.mem.read16 (s.get .fp + 4#16).toNat := by
  obtain ⟨-, -, hrestored, -⟩ := popState_spec s
  exact hrestored 0 (by decide)

/-- A register that reads otherwise after an instruction is one that the instruction writes. -/
theorem mem_writtenRegs_of_changed {i : Instr} {s t : State} {r : Reg} (h : exec i s = .next t)
    (hchanged : t.get r ≠ s.get r) : r ∈ writtenRegs i := by
  by_contra hkept
  exact hchanged ((Effect.of_exec h).regs r hkept)

/-- `ip` is written by the branch, the calls, the return, and the instructions whose destination it is. -/
theorem ip_mem_writtenRegs {i : Instr} (h : Reg.ip ∈ writtenRegs i) :
    (∃ value address, i = .jmpNotEq value address) ∨ (∃ address, i = .calLit address) ∨ (∃ src, i = .calReg src) ∨
      i = .ret ∨ destination i = some .ip := by
  have named {dst : Reg} (hdst : Reg.ip ∈ [dst]) : some dst = some Reg.ip :=
    congrArg some (List.mem_singleton.mp hdst).symm
  cases i with
  | jmpNotEq value address => exact .inl ⟨value, address, rfl⟩
  | calLit address => exact .inr (.inl ⟨address, rfl⟩)
  | calReg src => exact .inr (.inr (.inl ⟨src, rfl⟩))
  | ret => exact .inr (.inr (.inr (.inl rfl)))
  | movLitReg literal dst => exact .inr (.inr (.inr (.inr (named h))))
  | movRegReg src dst => exact .inr (.inr (.inr (.inr (named h))))
  | movMemReg address dst => exact .inr (.inr (.inr (.inr (named h))))
  | pop dst => exact .inr (.inr (.inr (.inr (named (List.mem_of_ne_of_mem (by decide) h)))))
  | _ => simp [writtenRegs] at h

/-- A branch that changes `ip` is taken. -/
theorem exec_jmpNotEq_of_ip_changed {value address : Word} {s t : State} (h : exec (.jmpNotEq value address) s = .next t)
    (hchanged : t.get .ip ≠ s.get .ip) : value ≠ s.get .acc ∧ t.get .ip = address := by
  by_cases heq : value = s.get .acc
  · rw [exec_jmpNotEq_of_eq address heq] at h
    cases h
    exact absurd rfl hchanged
  · rw [exec_jmpNotEq_of_ne address heq] at h
    cases h
    exact ⟨heq, State.get_set_self s .ip address⟩

/-- Settles O37: an instruction that changes `ip` is one that writes it, and each of those says what it writes there. -/
theorem ipChangesOnlyByControlTransfers : Obligations.IpChangesOnlyByControlTransfers := by
  intro i s t h hchanged
  obtain ⟨value, address, rfl⟩ | ⟨address, rfl⟩ | ⟨src, rfl⟩ | rfl | hdst :=
    ip_mem_writtenRegs (mem_writtenRegs_of_changed h hchanged)
  · exact .inl ⟨value, address, rfl, exec_jmpNotEq_of_ip_changed h hchanged⟩
  · exact .inr (.inl ⟨address, rfl, callTo_ip (finishStore_eq_next h)⟩)
  · exact .inr (.inr (.inl ⟨src, rfl, callTo_ip (finishStore_eq_next h)⟩))
  · cases h
    exact .inr (.inr (.inr (.inl ⟨rfl, popState_ip s⟩)))
  · exact .inr (.inr (.inr (.inr hdst)))

end Sys2Proof.Machine

/-! SUPPORT. The statements about the stack (spec/44_stack.md): a push's contract and the two meanings that are one push, a
pop and what it gives back after a push, and the loop of pops that discards words. -/

namespace Sys2Proof.Machine

/-! ### A meaning that is one push -/

/-- A push that answers a state keeps the contract of rule R160. -/
theorem Pushed.of_push {v : Word} {s t : State} (h : push v s = .ok t) : Pushed v s t := by
  obtain ⟨-, hsp, -, hsfs, -, hbyte, -⟩ := push_eq_ok h
  have frame := Effect.of_push h
  exact ⟨(hbyte _).trans (if_pos rfl), (hbyte _).trans ((if_neg (Nat.succ_ne_self _)).trans (if_pos rfl)), hsp, hsfs,
    frame.regs, frame.mem⟩

theorem finishStore_push_of_lt (i : Instr) (v : Word) {s : State} (h : (s.get .sp).toNat + 1 < s.mem.size) :
    ∃ t, finishStore i s (push v s) = .next t ∧ Pushed v s t := by
  obtain ⟨t, ht⟩ := push_of_lt v h
  exact ⟨t, congrArg (finishStore i s) ht, .of_push ht⟩

theorem finishStore_push_ne_next (i : Instr) (v : Word) {s : State} (h : s.mem.size ≤ (s.get .sp).toNat + 1)
    (t : State) : finishStore i s (push v s) ≠ .next t := by
  intro hnext
  obtain ⟨hin, -⟩ := push_eq_ok (finishStore_eq_next hnext)
  exact Nat.not_le.mpr hin h

/-- Settles O22: the meaning is one push, of the literal. -/
theorem pshLitPushesItsLiteral : Obligations.PshLitPushesItsLiteral :=
  ⟨fun h l => (Spells.pshLit h l).stepsAs, fun literal _ hin => finishStore_push_of_lt (.pshLit literal) literal hin,
    fun literal _ t hout => finishStore_push_ne_next (.pshLit literal) literal hout t⟩

/-! ### Pop, and pop after push -/

theorem exec_pop (dst : Reg) (s : State) : exec (.pop dst) s = .next (popInto dst s) := rfl

/-- The destination is written last (spec/44_stack.md rule R165), so that it holds the popped word even where it is
`sp`. -/
theorem popInto_get_self (dst : Reg) (s : State) :
    (popInto dst s).get dst = s.mem.read16 (s.get .sp + 2#16).toNat := by
  rw [popInto_get, if_pos rfl]

theorem popInto_get_sp {dst : Reg} (h : dst ≠ .sp) (s : State) : (popInto dst s).get .sp = s.get .sp + 2#16 := by
  rw [popInto_get, if_neg h.symm, if_pos rfl]

/-- Settles O24: the popped word is one big-endian read above `sp`. -/
theorem popLoadsTheWordAboveSp : Obligations.PopLoadsTheWordAboveSp := by
  refine ⟨fun b => (Spells.pop b).stepsAs, fun dst s => ⟨popInto dst s, exec_pop dst s, ?_, fun hne => ?_,
    popInto_sfs dst s, (Effect.of_popInto dst s).regs, .of_mem_eq (popInto_mem dst s)⟩⟩
  · rw [popInto_get_self, Memory.read16_toNat]
  · exact popInto_get_sp hne s

/-- The word at the old `sp` after a push is the one pushed. -/
theorem Pushed.read16_eq {v : Word} {s t : State} (h : Pushed v s t) : t.mem.read16 (s.get .sp).toNat = v := by
  obtain ⟨hhigh, hlow, -⟩ := h
  rw [Memory.read16, hhigh, hlow, wordOfBytes_high_low]

/-- A pop undoes a push, whatever became of the registers other than `sp` between the two. -/
theorem Pushed.popInto_restores {v : Word} {s t u : State} (h : Pushed v s t) (hmem : u.mem = t.mem)
    (hsfs : u.sfs = t.sfs) (hsp : u.get .sp = t.get .sp) (dst : Reg) :
    (popInto dst u).get dst = v ∧ (dst ≠ .sp → (popInto dst u).get .sp = s.get .sp) ∧ (popInto dst u).sfs = s.sfs := by
  have hword := h.read16_eq
  obtain ⟨-, -, hpushedSp, hpushedSfs, -⟩ := h
  have hback : u.get .sp + 2#16 = s.get .sp := by rw [hsp, hpushedSp, BitVec.sub_add_cancel]
  refine ⟨?_, fun hne => ?_, ?_⟩
  · rw [popInto_get_self, hback, hmem, hword]
  · rw [popInto_get_sp hne, hback]
  · rw [popInto_sfs, hsfs, hpushedSfs, BitVec.add_sub_cancel]

/-- Settles O23: the meaning is one push, of what the register reads before it, and a pop undoes a push. -/
theorem pshRegPushesTheRegister : Obligations.PshRegPushesTheRegister := by
  refine ⟨fun a => (Spells.pshReg a).stepsAs, fun src s hin => finishStore_push_of_lt (.pshReg src) (s.get src) hin,
    fun src s t hout => finishStore_push_ne_next (.pshReg src) (s.get src) hout t,
    fun src dst s t u hpush hmem hsfs hsp => ?_⟩
  have pushed : Pushed (s.get src) s t := .of_push (finishStore_eq_next hpush)
  exact ⟨popInto dst u, exec_pop dst u, pushed.popInto_restores hmem hsfs hsp dst⟩

/-! ### The loop of pops -/

theorem popN_zero (s : State) : popN 0#16 s = s := by simp [popN]

theorem two_mul_add_one (n : Word) : 2#16 * (n + 1#16) = 2#16 + 2#16 * n := by
  rw [BitVec.mul_add, BitVec.mul_one, BitVec.add_comm]

/-- The net effect of one pop and `n` more. -/
theorem popN_add_one (n : Word) (s : State) : popN (n + 1#16) s = popN n (pop s).2 := by
  refine State.ext_reads (fun r => ?_) ?_ ?_
  · by_cases hr : r = .sp
    · subst hr
      rw [popN_sp, popN_sp, pop_state, State.get_setSfs, State.get_set_self, two_mul_add_one, BitVec.add_assoc]
    · rw [popN_get_of_ne _ _ hr, popN_get_of_ne _ _ hr, pop_state, State.get_setSfs, State.get_set_of_ne _ _ hr]
  · rw [popN_sfs, popN_sfs, pop_state, State.setSfs_sfs, two_mul_add_one, BitVec.sub_sub]
  · rw [popN_mem, popN_mem, pop_state, State.setSfs_mem, State.set_mem]

/-- The loop's net effect for any count, which the closed form takes modulo 65536. -/
theorem popRepeatedly_eq_popN (k : Nat) (s : State) : popRepeatedly k s = popN (BitVec.ofNat 16 k) s := by
  induction k generalizing s with
  | zero => exact (popN_zero s).symm
  | succ k ih => rw [popRepeatedly, ih, BitVec.ofNat_add, popN_add_one]

/-- Settles O25: a word is the count modulo 65536 of its own value. -/
theorem popNIsRepeatedPop : Obligations.PopNIsRepeatedPop := by
  intro n s
  rw [popRepeatedly_eq_popN, BitVec.ofNat_toNat, BitVec.setWidth_eq]

end Sys2Proof.Machine

/-! SUPPORT. The statements about call and return (spec/45_call_return.md): what a call that completes leaves behind, what a
return takes from the frame at `fp`, and the two matched against each other. -/

namespace Sys2Proof.Machine

/-! ### Where the stores of an operation are in range -/

theorem firstOut_eq_none_iff {s : State} {addresses : List Word} :
    firstOut s addresses = none ↔ ∀ a ∈ addresses, a.toNat + 1 < s.mem.size := by
  simp [firstOut, inRange_eq_true_iff]

theorem StoreOutcome.exists_eq_ok {s : State} {addresses : List Word} {r : Except Word State}
    (h : StoreOutcome s addresses r) (hin : ∀ a ∈ addresses, a.toNat + 1 < s.mem.size) : ∃ t, r = .ok t := by
  cases h with
  | stored t _ => exact ⟨t, rfl⟩
  | stopped a hout =>
    rw [firstOut_eq_none_iff.mpr hin] at hout
    cases hout

theorem StoreOutcome.in_range_of_ok {s t : State} {addresses : List Word} (h : StoreOutcome s addresses (.ok t)) :
    ∀ a ∈ addresses, a.toNat + 1 < s.mem.size := by
  cases h with
  | stored _ hin => exact firstOut_eq_none_iff.mp hin

/-! ### The entry of a call -/

theorem callTo_fp {target : Word} {s t : State} (h : callTo target s = .ok t) : t.get .fp = slot (s.get .sp) 10 := by
  obtain ⟨u, hu, rfl⟩ := callTo_eq_ok h
  obtain ⟨-, hfp, -⟩ := pushState_eq_ok hu
  rw [State.get_set_of_ne _ _ (by decide), hfp]

/-- The ten words of the frame: the nine saved registers, and the marker below them. -/
theorem callTo_read {target : Word} {s t : State} (h : callTo target s = .ok t) :
    (∀ (k : Nat) (hk : k < savedRegs.length), t.mem.read16 (slot (s.get .sp) k).toNat = s.get savedRegs[k]) ∧
      t.mem.read16 (slot (s.get .sp) 9).toNat = s.sfs + 20#16 := by
  obtain ⟨u, hu, rfl⟩ := callTo_eq_ok h
  rw [State.set_mem]
  exact pushState_read hu

/-- The word above the frame, the argument count of rule R181, is beside the ten words that a call writes. -/
theorem callTo_read_above {target : Word} {s t : State} (h : callTo target s = .ok t) :
    t.mem.read16 (s.get .sp + 2#16).toNat = s.mem.read16 (s.get .sp + 2#16).toNat := by
  obtain ⟨u, hu, rfl⟩ := callTo_eq_ok h
  obtain ⟨-, -, -, -, -, -, hbytes, -⟩ := pushState_eq_ok hu
  have apart (k : Nat) (hk : k < 10) := slot_apart (s.get .sp + 2#16) (show 0 < 32768 by decide)
    (show k + 1 < 32768 by omega) (Nat.succ_ne_zero k).symm
  simp only [slot_zero, ← slot_succ, BitVec.add_sub_cancel] at apart
  rw [State.set_mem]
  refine Memory.read16_congr (hbytes _ fun k hk => ?_) (hbytes _ fun k hk => ?_)
  · obtain ⟨hhigh, hlow, -⟩ := apart k hk
    exact ⟨hhigh, hlow⟩
  · obtain ⟨hhigh, -, hnext⟩ := apart k hk
    exact ⟨hnext, fun e => hhigh (Nat.succ.inj e)⟩

/-- A call that answers a state keeps the contract of rules R175 and R180. -/
theorem Called.of_callTo {target : Word} {s t : State} (h : callTo target s = .ok t) : Called target s t := by
  obtain ⟨hsaved, hmarker⟩ := callTo_read h
  obtain ⟨hsp, hsfs⟩ := callTo_sp_sfs h
  have frame := Effect.of_callTo h
  have hr1 := hsaved 0 (by decide)
  rw [slot_zero] at hr1
  exact ⟨hr1, hsaved 1 (by decide), hsaved 2 (by decide), hsaved 3 (by decide), hsaved 4 (by decide),
    hsaved 5 (by decide), hsaved 6 (by decide), hsaved 7 (by decide), hsaved 8 (by decide), hmarker, hsp, callTo_fp h,
    hsfs, callTo_ip h, frame.regs, frame.mem⟩

/-! ### A meaning that is one call -/

theorem finishStore_callTo_of_in_range (i : Instr) (target : Word) {s : State}
    (h : ∀ w ∈ frameSlots (s.get .sp), w.toNat + 1 < s.mem.size) :
    ∃ t, finishStore i s (callTo target s) = .next t ∧ Called target s t := by
  obtain ⟨t, ht⟩ := (StoreOutcome.of_callTo target s).exists_eq_ok h
  exact ⟨t, congrArg (finishStore i s) ht, .of_callTo ht⟩

theorem finishStore_callTo_ne_next (i : Instr) (target : Word) {s : State}
    (h : ∃ w ∈ frameSlots (s.get .sp), s.mem.size ≤ w.toNat + 1) (t : State) :
    finishStore i s (callTo target s) ≠ .next t := by
  intro hnext
  obtain ⟨w, hw, hout⟩ := h
  have stores := StoreOutcome.of_callTo target s
  rw [finishStore_eq_next hnext] at stores
  exact Nat.not_le.mpr (stores.in_range_of_ok w hw) hout

/-- Settles O26: the meaning is one call, to the literal. -/
theorem calLitBuildsTheFrameAndJumps : Obligations.CalLitBuildsTheFrameAndJumps :=
  ⟨fun h l => (Spells.calLit h l).stepsAs,
    fun address _ hin => finishStore_callTo_of_in_range (.calLit address) address hin,
    fun address _ t hout => finishStore_callTo_ne_next (.calLit address) address hout t⟩

/-- Settles O27: the meaning is one call, to what the register reads before it. -/
theorem calRegBuildsTheFrameAndJumps : Obligations.CalRegBuildsTheFrameAndJumps :=
  ⟨fun a => (Spells.calReg a).stepsAs,
    fun src s hin => finishStore_callTo_of_in_range (.calReg src) (s.get src) hin,
    fun src s t hout => finishStore_callTo_ne_next (.calReg src) (s.get src) hout t⟩

/-! ### The return -/

theorem exec_ret (s : State) : exec .ret s = .next (popState s) := rfl

/-- Settles O28, by what `PopState` does: its nine restored registers are `ip` and `r8` down to `r1`. -/
theorem retUnwindsTheFrameAtFp : Obligations.RetUnwindsTheFrameAtFp := by
  refine ⟨Spells.ret.stepsAs, fun s => ?_⟩
  obtain ⟨hsp, hfp, hrestored, hacc, hsfs, hmem⟩ := popState_spec s
  exact ⟨popState s, exec_ret s, hrestored 0 (by decide), hrestored 1 (by decide), hrestored 2 (by decide),
    hrestored 3 (by decide), hrestored 4 (by decide), hrestored 5 (by decide), hrestored 6 (by decide),
    hrestored 7 (by decide), hrestored 8 (by decide), hsp, hfp, hsfs, hacc, .of_mem_eq hmem⟩

/-- A return gives every restored register the word that stands for it in the frame at `fp`. -/
theorem popState_get_of_words {s : State} {value : Reg → Word}
    (h : ∀ (k : Nat) (hk : k < restoredRegs.length),
      s.mem.read16 (s.get .fp + BitVec.ofNat 16 (2 * k + 4)).toNat = value restoredRegs[k])
    {r : Reg} (hr : r ∈ restoredRegs) : (popState s).get r = value r := by
  obtain ⟨-, -, hrestored, -⟩ := popState_spec s
  obtain ⟨k, hk, rfl⟩ := List.getElem_of_mem hr
  exact (hrestored k hk).trans (h k hk)

theorem r1_to_r8_restored : ∀ r ∈ [Reg.r1, .r2, .r3, .r4, .r5, .r6, .r7, .r8], r ∈ restoredRegs := by decide

/-! ### A return without a frame -/

theorem resetOfSize_read16 (size a : Nat) : (State.resetOfSize size).mem.read16 a = 0#16 := by
  rw [Memory.read16, resetOfSize_byteAt, resetOfSize_byteAt]
  rfl

/-- Settles O29: every word of the frame, the marker and the count among them, reads 0. -/
theorem retWithoutAFrameReadsZeros : Obligations.RetWithoutAFrameReadsZeros := by
  intro size hmin _
  obtain ⟨hsp, hfp, -, -, hsfs, -⟩ := popState_spec (State.resetOfSize size)
  have hcount : returnCount (State.resetOfSize size) = 0#16 := resetOfSize_read16 ..
  have hrestored {r : Reg} (hr : r ∈ restoredRegs) : (popState (State.resetOfSize size)).get r = 0#16 :=
    popState_get_of_words (value := fun _ => 0#16) (fun _ _ => resetOfSize_read16 ..) hr
  have hreset : (State.resetOfSize size).get .fp = BitVec.ofNat 16 (size - 2) := rfl
  have hresetSfs : (State.resetOfSize size).sfs = 0#16 := rfl
  rw [hcount, BitVec.mul_zero] at hsp hsfs
  rw [hresetSfs] at hsfs
  rw [hreset, BitVec.add_zero, ← BitVec.ofNat_add, show size - 2 + 22 = size + 20 by omega] at hsp
  rw [hreset, resetOfSize_read16, BitVec.add_zero] at hfp
  exact ⟨_, exec_ret _, hrestored (by decide), fun r hr => hrestored (r1_to_r8_restored r hr), hsp, hfp,
    hsfs.trans (by decide)⟩

/-! ### A matched call and return -/

/-- The frame that a call left in `t` is still there in `u`: its address in `fp`, the count of pushed bytes, and the eleven
words above `fp`, from the marker to the argument count (rule R182). -/
structure FrameKept (t u : State) : Prop where
  fp : u.get .fp = t.get .fp
  sfs : u.sfs = t.sfs
  words (k : Nat) : 1 ≤ k → k ≤ 11 → u.mem.read16 (t.get .fp + BitVec.ofNat 16 (2 * k)).toNat =
    t.mem.read16 (t.get .fp + BitVec.ofNat 16 (2 * k)).toNat

/-- A call of either form that completes is one call. -/
theorem exists_callTo_of_exec {i : Instr} {s t : State} (hi : (∃ address, i = .calLit address) ∨ ∃ src, i = .calReg src)
    (h : exec i s = .next t) : ∃ target, callTo target s = .ok t := by
  obtain ⟨address, rfl⟩ | ⟨src, rfl⟩ := hi
  · exact ⟨address, finishStore_eq_next h⟩
  · exact ⟨s.get src, finishStore_eq_next h⟩

/-- `k` words above the slot of the push after `n` others is that of the push after `n - k`. -/
theorem slot_add (sp : Word) {k n : Nat} (h : k ≤ n) : slot sp n + BitVec.ofNat 16 (2 * k) = slot sp (n - k) := by
  obtain ⟨d, rfl⟩ := Nat.exists_eq_add_of_le' h
  rw [slot, slot, Nat.add_sub_cancel, Nat.mul_add, BitVec.ofNat_add, ← BitVec.sub_sub, BitVec.sub_add_cancel]

/-- The frame's address plus the marker (rule R183): the 20 bytes of the ten pushes cancel. -/
theorem slot_ten_add_marker (sp sfs : Word) : slot sp 10 + (sfs + 20#16) = sp + sfs := by
  rw [slot]
  bv_omega

/-- Ten pushes and eleven pops. -/
theorem add_twenty_sub_twenty_two (sfs : Word) : sfs + 20#16 - 22#16 = sfs - 2#16 := by bv_omega

/-- A return restores the registers in the reverse of the order in which the call saved them. -/
theorem restoredRegs_eq_reverse : restoredRegs = savedRegs.reverse := rfl

namespace FrameKept

variable {target : Word} {s t u : State}

/-- The address of the argument count, seen from the frame and from the caller. -/
theorem count_address (kept : FrameKept t u) (h : callTo target s = .ok t) :
    u.get .fp + 22#16 = s.get .sp + 2#16 := by
  rw [kept.fp, callTo_fp h, slot]
  bv_omega

theorem read_slot (kept : FrameKept t u) (h : callTo target s = .ok t) {k : Nat} (hpos : 1 ≤ k) (hk : k ≤ 10) :
    u.mem.read16 (u.get .fp + BitVec.ofNat 16 (2 * k)).toNat = t.mem.read16 (slot (s.get .sp) (10 - k)).toNat := by
  rw [kept.fp, kept.words k hpos (by omega), callTo_fp h, slot_add _ hk]

theorem read_marker (kept : FrameKept t u) (h : callTo target s = .ok t) :
    u.mem.read16 (u.get .fp + 2#16).toNat = s.sfs + 20#16 := by
  obtain ⟨-, hmarker⟩ := callTo_read h
  exact (kept.read_slot h (k := 1) (by decide) (by decide)).trans hmarker

theorem read_restored (kept : FrameKept t u) (h : callTo target s = .ok t) (k : Nat) (hk : k < restoredRegs.length) :
    u.mem.read16 (u.get .fp + BitVec.ofNat 16 (2 * k + 4)).toNat = s.get restoredRegs[k] := by
  have hlen : restoredRegs.length = 9 := rfl
  have hword := kept.read_slot h (k := k + 2) (by omega) (by omega)
  obtain ⟨hsaved, -⟩ := callTo_read h
  rw [show 10 - (k + 2) = 8 - k by omega, hsaved (8 - k) (Nat.lt_succ_of_le (Nat.sub_le 8 k))] at hword
  simp only [restoredRegs_eq_reverse, List.getElem_reverse]
  exact hword

theorem returnCount_eq (kept : FrameKept t u) (h : callTo target s = .ok t) :
    returnCount u = s.mem.read16 (s.get .sp + 2#16).toNat := by
  have hword := kept.words 11 (by decide) (by decide)
  rw [← kept.fp, kept.count_address h, callTo_read_above h] at hword
  rw [returnCount, kept.count_address h, hword]

end FrameKept

/-- Settles O30: the return reads the words that the call wrote and the count above them. -/
theorem matchedReturnRestoresTheCaller : Obligations.MatchedReturnRestoresTheCaller := by
  intro i s t u hi hexec hufp husfs hwords
  obtain ⟨target, hcall⟩ := exists_callTo_of_exec hi hexec
  have kept : FrameKept t u := ⟨hufp, husfs, hwords⟩
  obtain ⟨hsp, hfp, -, hacc, hsfs, hmem⟩ := popState_spec u
  obtain ⟨-, hcalledSfs⟩ := callTo_sp_sfs hcall
  have hrestored {r : Reg} (hr : r ∈ restoredRegs) : (popState u).get r = s.get r :=
    popState_get_of_words (kept.read_restored hcall) hr
  rw [kept.count_address hcall, kept.returnCount_eq hcall] at hsp
  rw [kept.sfs, hcalledSfs, kept.returnCount_eq hcall, add_twenty_sub_twenty_two] at hsfs
  rw [kept.read_marker hcall, kept.fp, callTo_fp hcall, slot_ten_add_marker] at hfp
  exact ⟨popState u, exec_ret u, hrestored (by decide), fun r hr => hrestored (r1_to_r8_restored r hr), hsp, hsfs, hfp,
    by rw [hfp, eq_comm], hacc, .of_mem_eq hmem⟩

end Sys2Proof.Machine

/-! SUPPORT. The statement about the meanings of the unassigned opcodes (spec/46_unassigned_opcodes.md): the dispatch sends
each of the sixteen rows to the one identity handler, whatever the row's free bits. -/

namespace Sys2Proof.Machine

theorem identityHandler_eq_next (s : State) : identityHandler s = .next s := rfl

/-- Settles O32, row by row: `exec` dispatches the row to the identity handler. -/
theorem unassignedHandlersChangeNothing : Obligations.UnassignedHandlersChangeNothing := by
  intro s
  have identity := identityHandler_eq_next s
  exact ⟨fun _ => identity, identity, identity, identity, fun _ => identity, fun _ => identity, fun _ => identity,
    fun _ => identity, fun _ => identity, fun _ => identity, identity, fun _ => identity, fun _ => identity,
    fun _ => identity, fun _ => identity, fun _ => identity⟩

end Sys2Proof.Machine

/-! SUPPORT. The statement about reset (spec/70_reset_and_hazards.md): a reset reads nothing of the machine but its size. -/

namespace Sys2Proof.Machine

theorem hostApply_reset (s : State) : hostApply .reset s = .next (State.resetOfSize s.mem.size) := rfl

/-- Settles O43: the answer is a function of the memory's size alone, so machines of one size answer alike. -/
theorem resetKeepsOnlyTheMemorySize : Obligations.ResetKeepsOnlyTheMemorySize := by
  intro s
  refine ⟨State.resetOfSize s.mem.size, hostApply_reset s, rfl, fun u hsize => ?_⟩
  rw [hostApply_reset, hsize]

end Sys2Proof.Machine
